-- ==== Sys2Proof/Word.lean ====
section
/-! DEFINITION. The word types of the framer block and the two byte-order facts the spec fixes.
Rules R8, R9 and R58 (spec/00_scope.md, spec/20_memory.md): bits are numbered from 0, the least significant. -/

namespace Sys2Proof

/-- A host-visible register word: 32 bits (R8). -/
abbrev Word := BitVec 32

/-- A buffer byte (R56). -/
abbrev Byte := BitVec 8

/-- A host address: one byte-addressed space of 18 bits (R50). -/
abbrev Addr := BitVec 18

/-- A bit sequence in line order: element 0 is first on the line (R10). -/
abbrev Bits := List Bool

end Sys2Proof
end

