-- ==== Sys2Proof/Config.lean ====
section
/-! DEFINITION. What an implementation fixes (the two buffer capacities), the address map's bases, and the one free
value of the spec: what a buffer byte holds at power-on. -/

namespace Sys2Proof

/-- The two OPEN parameters of the spec (R6, D2, U2): the capacities of IBUF and OBUF in bytes.
The machine holds them in its state as constants, so that a statement about every state is a statement about every
choice of the parameters (log entry 4). -/
structure Config where
  /-- IBUF_BYTES -/
  ibufBytes : Nat
  /-- OBUF_BYTES -/
  obufBytes : Nat
deriving DecidableEq, Repr

/-- The capacities of the machine that `State.reset` describes: 256 bytes each.
DESIGN CHOICE (log entry 4): the spec leaves both OPEN, and its test vectors are written for 256. -/
def Config.standard : Config := { ibufBytes := 256, obufBytes := 256 }

/-- FREE VALUE (U1, R41, R284; log entry 3): the byte that the buffer address `a` holds after the power-on number
`cycle`, until it is written. "One draw per byte at power-on, stable until written." It has no body: nothing can
evaluate it or prove a value of it.
DESIGN CHOICE (log entry 16): the draw depends on the power-on number and the address and not on the instance, so two
instances at the same power-on number hold equal unwritten bytes. The spec leaves that open (U1, R261). -/
opaque Config.powerOnByte (cycle a : Nat) : Byte

/-- The register window is 0x00000 to 0x00FFF (R50). -/
abbrev regWindowEnd : Nat := 0x01000

/-- IBUF[i] is at IBUF_BASE + i (R50). -/
abbrev ibufBase : Nat := 0x10000

/-- OBUF[i] is at OBUF_BASE + i (R50). -/
abbrev obufBase : Nat := 0x20000

/-- The address is a byte of IBUF that exists (R50, R56). -/
def Config.isIbufByte (c : Config) (a : Nat) : Bool := ibufBase ≤ a && a < ibufBase + c.ibufBytes

/-- The address is a byte of OBUF that exists (R50, R56). -/
def Config.isObufByte (c : Config) (a : Nat) : Bool := obufBase ≤ a && a < obufBase + c.obufBytes

/-- The address is a buffer byte that exists. Every other address at or above the register window's end holds
nothing (R57). -/
def Config.isBufferByte (c : Config) (a : Nat) : Bool := c.isIbufByte a || c.isObufByte a

end Sys2Proof
end

