-- ==== Sys2Proof/Syntax.lean ====
section
/-! DEFINITION. The commands of the block (one constructor per row of spec/opcode_table.json), the registers of its
register window, the moves its host has, and the statements of the spec's host-program notation. -/

namespace Sys2Proof

/-- A command, the spec's counterpart of an instruction (R13, R83). A command word has no operand, register or
immediate field (R82), so no constructor has an argument. -/
inductive Instr where
  /-- SOFT_RESET, opcode 0x01 (R230) -/
  | softReset
  /-- CRC_INIT, opcode 0x10 (R162) -/
  | crcInit
  /-- CRC_BYTE, opcode 0x11 (R163) -/
  | crcByte
  /-- CRC_BUF, opcode 0x12 (R164) -/
  | crcBuf
  /-- FCS_CHECK, opcode 0x13 (R165) -/
  | fcsCheck
  /-- REV_BYTE, opcode 0x20 (R141) -/
  | revByte
  /-- REV_BUF, opcode 0x21 (R142) -/
  | revBuf
  /-- HDLC_ENCODE, opcode 0x30 (R200) -/
  | hdlcEncode
  /-- HDLC_DECODE, opcode 0x31 (R203) -/
  | hdlcDecode
  /-- ADDR_ENCODE, opcode 0x40 (R110) -/
  | addrEncode
  /-- ADDR_DECODE, opcode 0x41 (R120) -/
  | addrDecode
deriving DecidableEq, Repr

/-- A register of the register map (R51). CMD has no storage and FCS is a view of CRC (R40, R29). -/
inductive Reg where
  | cmd | status | ilen | olen | obits | crc | fcs | din | dout | nrep | hdr | hlen
  /-- ARk_LO -/
  | arLo (k : Fin 10)
  /-- ARk_HI -/
  | arHi (k : Fin 10)
deriving DecidableEq, Repr

/-- One thing the outside world does to the block. The first four are the host's accesses (R67): a 32-bit word or a
byte, at an address of the 18-bit space. A write of a word to CMD is what starts a command (R63, R80).
The last is the platform's power-on reset (R282). A host access of any other width has no constructor: the host has
no such move (R52, R56, U3). -/
inductive Input where
  | writeWord (a : Addr) (w : Word)
  | readWord (a : Addr)
  | writeByte (a : Addr) (b : Byte)
  | readByte (a : Addr)
  | powerOn
deriving DecidableEq, Repr

/-- What a host read gives back (R67): a word from the register window, or a byte from a buffer window. -/
inductive Reply where
  | word (w : Word)
  | byte (b : Byte)
deriving DecidableEq, Repr

/-- The two buffers (R41). -/
inductive Buffer where
  | ibuf
  | obuf
deriving DecidableEq, Repr

/-- A statement of the spec's host-program notation (R86). -/
inductive Stmt where
  /-- `WR <reg>, <value>` -/
  | wr (r : Reg) (v : Word)
  /-- `RD <reg>` -/
  | rd (r : Reg)
  /-- `WRB IBUF[<i>], <byte>` or `WRB OBUF[<i>], <byte>` -/
  | wrb (buf : Buffer) (i : Nat) (b : Byte)
  /-- `RDB IBUF[<i>]` or `RDB OBUF[<i>]` -/
  | rdb (buf : Buffer) (i : Nat)
  /-- `CMD <MNEMONIC>` -/
  | cmd (i : Instr)
  /-- `LOAD IBUF[<i>], b0 b1 ... bn-1` -/
  | load (i : Nat) (bs : List Byte)
deriving DecidableEq, Repr

end Sys2Proof
end

