-- ==== Sys2Proof/WellFormed.lean ====
section
/-! DEFINITION. What makes a term of the syntax one the spec gives a meaning: the bounds on the parameters, the
accesses the host interface has, and the indexes the program notation may use. -/

namespace Sys2Proof

/-- A command has no field that could be ill formed (R82): every command is well formed, each named here. -/
def Instr.wellFormed : Instr → Bool
  | .softReset => true
  | .crcInit => true
  | .crcByte => true
  | .crcBuf => true
  | .fcsCheck => true
  | .revByte => true
  | .revBuf => true
  | .hdlcEncode => true
  | .hdlcDecode => true
  | .addrEncode => true
  | .addrDecode => true

/-- `70 <= IBUF_BYTES <= 65535` and `70 <= OBUF_BYTES <= 65535` (R6). -/
def Config.wellFormed (c : Config) : Bool :=
  70 ≤ c.ibufBytes && c.ibufBytes ≤ 65535 && 70 ≤ c.obufBytes && c.obufBytes ≤ 65535

/-- A word access the interface has: 4-byte aligned (R52), and not at a buffer byte that exists, where only byte
accesses are (R56). At an address that holds nothing a word access is in the interface (R53, R57; log entry 6). -/
def Config.wordAccess (c : Config) (a : Addr) : Bool :=
  a.toNat % 4 == 0 && !c.isBufferByte a.toNat

/-- A byte access the interface has: anywhere but the register window, where only word accesses are (R52, R56, R57). -/
def byteAccess (a : Addr) : Bool := regWindowEnd ≤ a.toNat

/-- The input is one the host interface has (R52, R56, R57, R67), or the platform's power-on reset (R282). -/
def Input.wellFormed (c : Config) : Input → Bool
  | .writeWord a _ => c.wordAccess a
  | .readWord a => c.wordAccess a
  | .writeByte a _ => byteAccess a
  | .readByte a => byteAccess a
  | .powerOn => true

/-- A buffer index of the program notation stays inside its buffer's 64 KiB window (R50, R86). -/
def Stmt.wellFormed : Stmt → Bool
  | .wr _ _ => true
  | .rd _ => true
  | .wrb _ i _ => i < 65536
  | .rdb _ i => i < 65536
  | .cmd _ => true
  | .load i bs => i + bs.length ≤ 65536

end Sys2Proof
end

