-- ==== Sys2Proof/Decode.lean ====
section
/-! DEFINITION. The command decoder (total over all 2^32 words), the encoder written from the same table, the
register map with its inverse, and the bus accesses a program statement stands for. -/

namespace Sys2Proof

/-- Why a command word is ILLEGAL (R84, R85). -/
inductive Illegal where
  /-- RSVD, bits 31:8, is not 0 -/
  | reservedBits
  /-- OPCODE, bits 7:0, is not one of R83 -/
  | unassignedOpcode
deriving DecidableEq, Repr

/-- OPCODE, bits 7:0 of a command word (R80). -/
def opcodeField (w : Word) : BitVec 8 := w.extractLsb' 0 8

/-- RSVD, bits 31:8 of a command word (R80). -/
def reservedField (w : Word) : BitVec 24 := w.extractLsb' 8 24

/-- The opcode map read from opcode to command (R83). -/
def decodeOpcode (op : BitVec 8) : Option Instr :=
  match op.toNat with
  | 0x01 => some .softReset
  | 0x10 => some .crcInit
  | 0x11 => some .crcByte
  | 0x12 => some .crcBuf
  | 0x13 => some .fcsCheck
  | 0x20 => some .revByte
  | 0x21 => some .revBuf
  | 0x30 => some .hdlcEncode
  | 0x31 => some .hdlcDecode
  | 0x40 => some .addrEncode
  | 0x41 => some .addrDecode
  | _ => none

/-- `decode(w)` of R84. An ILLEGAL word is rejected by the reason's name. -/
def decode (w : Word) : Except Illegal Instr :=
  if reservedField w = 0 then
    match decodeOpcode (opcodeField w) with
    | some i => .ok i
    | none => .error .unassignedOpcode
  else .error .reservedBits

/-- The opcode map read from command to opcode (R83). -/
def Instr.opcode : Instr → BitVec 8
  | .softReset => 0x01
  | .crcInit => 0x10
  | .crcByte => 0x11
  | .crcBuf => 0x12
  | .fcsCheck => 0x13
  | .revByte => 0x20
  | .revBuf => 0x21
  | .hdlcEncode => 0x30
  | .hdlcDecode => 0x31
  | .addrEncode => 0x40
  | .addrDecode => 0x41

/-- The command word of a command: its opcode, with RSVD 0 (R80, R83). -/
def encode (i : Instr) : Word := (0 : BitVec 24) ++ i.opcode

/-- The command the decoder reads from the opcode table's bits: the table's only format is one 32-bit word, which the
host writes whole, so its bits are the word's bits (R58, R81). Bits at or above `nbits` are 0. -/
def decodeTableWord (nbits w : Nat) : Option Instr :=
  match decode (BitVec.ofNat 32 (w % 2 ^ nbits)) with
  | .ok i => some i
  | .error _ => none

/-- The register at an offset of the register window (R51, R55). -/
def regAt (off : Nat) : Option Reg :=
  match off with
  | 0x000 => some .cmd
  | 0x004 => some .status
  | 0x008 => some .ilen
  | 0x00C => some .olen
  | 0x010 => some .obits
  | 0x014 => some .crc
  | 0x018 => some .fcs
  | 0x01C => some .din
  | 0x020 => some .dout
  | 0x024 => some .nrep
  | 0x028 => some .hdr
  | 0x02C => some .hlen
  | _ =>
    if h : 0x040 ≤ off ∧ off < 0x090 then
      if off % 8 = 0 then some (.arLo ⟨(off - 0x040) / 8, by omega⟩)
      else if off % 8 = 4 then some (.arHi ⟨(off - 0x040) / 8, by omega⟩)
      else none
    else none

/-- The offset of a register (R51). -/
def Reg.offset : Reg → Nat
  | .cmd => 0x000
  | .status => 0x004
  | .ilen => 0x008
  | .olen => 0x00C
  | .obits => 0x010
  | .crc => 0x014
  | .fcs => 0x018
  | .din => 0x01C
  | .dout => 0x020
  | .nrep => 0x024
  | .hdr => 0x028
  | .hlen => 0x02C
  | .arLo k => 0x040 + 8 * k.val
  | .arHi k => 0x044 + 8 * k.val

/-- The address of a register (R50, R51). -/
def Reg.addr (r : Reg) : Addr := BitVec.ofNat 18 r.offset

/-- The address of a buffer's byte `i` (R50). -/
def Buffer.addr (buf : Buffer) (i : Nat) : Addr :=
  match buf with
  | .ibuf => BitVec.ofNat 18 (ibufBase + i)
  | .obuf => BitVec.ofNat 18 (obufBase + i)

/-- `LOAD IBUF[i], b0 b1 ...` stands for the byte writes in order (R86). -/
def loadInputs : Nat → List Byte → List Input
  | _, [] => []
  | i, b :: bs => .writeByte (Buffer.ibuf.addr i) b :: loadInputs (i + 1) bs

/-- "Each statement's encoding is its bus access: the address ..., the width, and the data" (R86). -/
def Stmt.inputs : Stmt → List Input
  | .wr r v => [.writeWord r.addr v]
  | .rd r => [.readWord r.addr]
  | .wrb buf i b => [.writeByte (buf.addr i) b]
  | .rdb buf i => [.readByte (buf.addr i)]
  | .cmd i => [.writeWord Reg.cmd.addr (encode i)]
  | .load i bs => loadInputs i bs

/-- The bus accesses of a host program, in the order the host issues them (R64, R86). -/
def programInputs (p : List Stmt) : List Input := p.flatMap Stmt.inputs

end Sys2Proof
end

