-- ==== Sys2Proof/Machine/State.lean ====
section
/-! DEFINITION. The state of the framer block as plain data, its reset value, and the reasons a step can stop. -/

namespace Sys2Proof.Machine

/-- The values of STATUS.CODE (R250). Values 13 to 15 are never produced, so they have no name here (U7, log entry 9). -/
inductive StatusCode where
  | ok
  | invalidCallsignLength
  | tooManyRepeaters
  | truncatedAddressField
  | bitStuffingViolation
  | fcsMismatch
  | noOpeningFlag
  | noClosingFlag
  | nonOctetFrame
  | frameTooShort
  | lengthOutOfRange
  | outputOverflow
  | illegalCommand
deriving DecidableEq, Repr

/-- The fields of STATUS (R23). -/
structure Status where
  code : StatusCode
  lastOpcode : BitVec 8
deriving DecidableEq, Repr

/-- The fields of HDR (R33). -/
structure Hdr where
  /-- CR, bit 0 -/
  cr : Bool
  /-- SRC_CR, bit 1 -/
  srcCr : Bool
deriving DecidableEq, Repr

/-- An address slot AR[k] (R35, R36, R37). -/
structure AddrSlot where
  /-- CALL0 to CALL5 -/
  call : Vector Byte 6
  clen : BitVec 3
  ssid : BitVec 4
  ch : Bool
  res5 : Bool
  res6 : Bool
  ext : Bool
deriving DecidableEq, Repr

/-- The reset value of every address slot (R38). -/
def AddrSlot.reset : AddrSlot :=
  { call := #v[0x20, 0x20, 0x20, 0x20, 0x20, 0x20]
    clen := 0
    ssid := 0
    ch := false
    res5 := true
    res6 := true
    ext := false }

/-- The buffer bytes written since power-on, by address. An address that is not listed has no value of its own: it
reads as the power-on draw of `Config.powerOnByte` (U1; log entries 3 and 5). -/
abbrev Memory := List Host.Cell

/-- The canonical form: addresses strictly rising. No value is what an unlisted address reads as, so no entry can
equal it, and equal contents are equal lists (log entry 5). -/
abbrev Memory.wf (m : Memory) : Prop := m.Pairwise (fun x y => x.1 < y.1)

/-- The whole state. Reserved bits have no storage: they read as 0 and ignore writes (R54). CMD has no storage (R40)
and FCS is a view of CRC (R29). -/
structure State where
  /-- STATUS (R23) -/
  status : Status
  /-- ILEN, bits 15:0 (R25) -/
  ilen : BitVec 16
  /-- OLEN, bits 15:0 (R26) -/
  olen : BitVec 16
  /-- OBITS (R27) -/
  obits : BitVec 32
  /-- CRC, bits 15:0 (R28) -/
  crc : BitVec 16
  /-- DIN, bits 7:0 (R30) -/
  din : BitVec 8
  /-- DOUT, bits 7:0 (R31) -/
  dout : BitVec 8
  /-- NREP, bits 3:0 (R32) -/
  nrep : BitVec 4
  /-- HDR, bits 1:0 (R33) -/
  hdr : Hdr
  /-- HLEN, bits 7:0 (R34) -/
  hlen : BitVec 8
  /-- AR[0] to AR[9] (R35) -/
  ar : Vector AddrSlot 10
  /-- IBUF and OBUF (R41), by address (R50) -/
  mem : Memory
  /-- IBUF_BYTES and OBUF_BYTES (R6), constant along every run (log entry 4) -/
  cfg : Config
  /-- The moves the host and the platform have still to make, in order (R64; log entry 1). The model's own field. -/
  inputs : List Input
  /-- What the host's reads gave back, the latest first (R67; log entry 2). The model's own field. -/
  replies : List Reply
  /-- How many power-ons came before the present one, which picks the draws of the unwritten bytes (U1; log
  entries 3 and 8). The model's own field. -/
  powerCycle : Nat
deriving DecidableEq, Repr

/-- The state right after power-on number `cycle` of a block with the capacities `c`, with the moves `inputs` still to
be made (R280). -/
def State.atPowerOn (c : Config) (cycle : Nat) (inputs : List Input) (replies : List Reply) : State :=
  { status := { code := .ok, lastOpcode := 0x00 }
    ilen := 0
    olen := 0
    obits := 0
    crc := 0xFFFF
    din := 0
    dout := 0
    nrep := 0
    hdr := { cr := false, srcCr := false }
    hlen := 0
    ar := Vector.replicate 10 AddrSlot.reset
    mem := []
    cfg := c
    inputs := inputs
    replies := replies
    powerCycle := cycle }

/-- The machine right after reset (R280). It is idle: no move of the host is pending (R281). -/
def State.reset : State := State.atPowerOn Config.standard 0 [] []

/-- The reasons for a fault: none. The block has no trap mechanism, every command and every error ends in a next
state, and no access of the host interface stops it (R252, R255). Nobody raises one, which is safe: nothing is
stopped that the hardware lets run. -/
inductive Fault where
deriving DecidableEq, Repr

/-- The reasons for a refusal. -/
inductive Refusal where
  /-- A command without a meaning in the model. Raised by `exec`'s arms only, and by no arm now. Safe. -/
  | notModelled (mnemonic : String)
  /-- A host access outside the host interface: an unaligned word, a byte in the register window, or a word at a
  buffer byte that exists. "A model gives it no move" (R52, R56, R67, U3, U9). Raised by `hostStep`. Safe: nothing is
  claimed of such a run. -/
  | outsideHostInterface
deriving DecidableEq, Repr

end Sys2Proof.Machine
end

