-- ==== Sys2Proof/Machine/Ops.lean ====
section
/-! DEFINITION. The named operations over memory and registers, and how a command ends: `complete`, `raiseStatus` and
`finish`, the block's one shared way of reporting an error (R11, R252). -/

namespace Sys2Proof.Machine

/-- The byte with the given bits, from bit 7 down to bit 0 (R9). -/
def byteOf (b7 b6 b5 b4 b3 b2 b1 b0 : Bool) : Byte :=
  BitVec.ofBool b7 ++ BitVec.ofBool b6 ++ BitVec.ofBool b5 ++ BitVec.ofBool b4 ++ BitVec.ofBool b3 ++
    BitVec.ofBool b2 ++ BitVec.ofBool b1 ++ BitVec.ofBool b0

/-- The byte written at an address, if one has been written there. -/
def Memory.cellAt : Memory → Nat → Option Byte
  | [], _ => none
  | (b, v) :: m, a => if a = b then some v else Memory.cellAt m a

/-- Write one byte, keeping the canonical form. -/
def Memory.write : Memory → Nat → Byte → Memory
  | [], a, v => [(a, v)]
  | (b, w) :: m, a, v =>
    if a < b then (a, v) :: (b, w) :: m
    else if a = b then (a, v) :: m
    else (b, w) :: Memory.write m a v

/-- Write bytes at rising addresses from `a` on. -/
def Memory.writeBytes : Memory → Nat → List Byte → Memory
  | m, _, [] => m
  | m, a, v :: vs => Memory.writeBytes (Memory.write m a v) (a + 1) vs

/-- `MemRead(a, 1)` (R11): the byte written there, or the power-on draw where nothing has been written since
power-on (U1, R284). -/
def State.byteAt (s : State) (a : Nat) : Byte :=
  match Memory.cellAt s.mem a with
  | some b => b
  | none => Config.powerOnByte s.powerCycle a

/-- `IBUF[i]` (R11). -/
def State.ibuf (s : State) (i : Nat) : Byte := s.byteAt (ibufBase + i)

/-- `OBUF[i]` (R11). -/
def State.obuf (s : State) (i : Nat) : Byte := s.byteAt (obufBase + i)

/-- `OBUF[i] <- bs[i]` for every index of `bs` (R11). -/
def storeObuf (bs : List Byte) (s : State) : State :=
  { s with mem := Memory.writeBytes s.mem obufBase bs }

/-- `complete` (R11): the command of opcode `op` ends successfully. -/
def complete (op : BitVec 8) (s : State) : State :=
  { s with status := { code := .ok, lastOpcode := op } }

/-- `raise Status(code)` (R11, R252): the command of opcode `op` ends with an error, which writes STATUS and nothing
else. This is the block's only form of exception. It saves no other state and transfers no control, and nothing
returns from it (R255, R257). -/
def raiseStatus (op : BitVec 8) (code : StatusCode) (s : State) : State :=
  { s with status := { code := code, lastOpcode := op } }

/-- How every command ends (R252): it either raises the status code its checks gave and writes nothing else, or
commits all its outputs and completes. -/
def finish {α : Type} (op : BitVec 8) (r : Except StatusCode α) (commit : α → State → State) (s : State) :
    Host.Outcome State Fault Refusal :=
  match r with
  | .error code => .next (raiseStatus op code s)
  | .ok a => .next (complete op (commit a s))

/-- A CMD write whose word decodes to ILLEGAL (R231): STATUS is IllegalCommand beside the word's bits 7:0. -/
def illegalCommand (w : Word) (s : State) : State := raiseStatus (opcodeField w) .illegalCommand s

/-- `AR[k], AR[k+1], ... <- slots` (R120). -/
def setSlots (ar : Vector AddrSlot 10) : Nat → List AddrSlot → Vector AddrSlot 10
  | _, [] => ar
  | k, a :: slots => setSlots (ar.setIfInBounds k a) (k + 1) slots

/-- Every register at its reset value, with the buffers and everything outside the block left alone (R230). -/
def resetRegisters (s : State) : State :=
  { s with
    ilen := 0
    olen := 0
    obits := 0
    crc := 0xFFFF
    din := 0
    dout := 0
    nrep := 0
    hdr := { cr := false, srcCr := false }
    hlen := 0
    ar := Vector.replicate 10 AddrSlot.reset }

end Sys2Proof.Machine
end

