-- ==== Sys2Proof/Machine/Flags.lean ====
section
/-! DEFINITION. The block's only condition state, STATUS (R24): the numbers of its codes and its register word. -/

namespace Sys2Proof.Machine

/-- The number of a status code (R250). -/
def StatusCode.number : StatusCode → BitVec 4
  | .ok => 0
  | .invalidCallsignLength => 1
  | .tooManyRepeaters => 2
  | .truncatedAddressField => 3
  | .bitStuffingViolation => 4
  | .fcsMismatch => 5
  | .noOpeningFlag => 6
  | .noClosingFlag => 7
  | .nonOctetFrame => 8
  | .frameTooShort => 9
  | .lengthOutOfRange => 10
  | .outputOverflow => 11
  | .illegalCommand => 12

/-- STATUS as the host reads it: LAST_OPCODE in bits 15:8, CODE in bits 3:0, the rest 0 (R23). -/
def Status.word (st : Status) : Word :=
  st.lastOpcode.setWidth 32 <<< 8 ||| st.code.number.setWidth 32

/-- One bit of a register word, at position `i` (R9). -/
def bitAt (b : Bool) (i : Nat) : Word := (BitVec.ofBool b).setWidth 32 <<< i

/-- HDR as the host reads it: SRC_CR in bit 1, CR in bit 0, the rest 0 (R33). -/
def Hdr.word (h : Hdr) : Word :=
  bitAt h.srcCr 1 ||| bitAt h.cr 0

end Sys2Proof.Machine
end

