-- ==== Sys2Proof/Machine/Operands.lean ====
section
/-! DEFINITION. Where commands get their operands: the input bytes IBUF[0 .. ILEN-1] behind their length check, the
7-byte groups of an address field, and the address slots a serialization uses. -/

namespace Sys2Proof.Machine

/-- `IBUF[0 .. n-1]`. -/
def inputBytes (s : State) (n : Nat) : List Byte := (List.range n).map s.ibuf

/-- The operand of every command that reads IBUF: `IBUF[0 .. ILEN-1]`, behind the check that comes before any byte is
read (R251). -/
def checkedInput (s : State) : Except StatusCode (List Byte) :=
  if s.cfg.ibufBytes < s.ilen.toNat then .error .lengthOutOfRange
  else .ok (inputBytes s s.ilen.toNat)

/-- The check of every command that writes OBUF: `n` bytes must fit. -/
def fitsObuf (s : State) (n : Nat) : Bool := n ≤ s.cfg.obufBytes

/-- Group `k` of an address field, `IBUF[7k .. 7k+6]` (R120). -/
def inputGroup (s : State) (k : Nat) : Vector Byte 7 :=
  #v[s.ibuf (7 * k), s.ibuf (7 * k + 1), s.ibuf (7 * k + 2), s.ibuf (7 * k + 3), s.ibuf (7 * k + 4),
    s.ibuf (7 * k + 5), s.ibuf (7 * k + 6)]

/-- The slots a serialization with `r` repeaters uses, AR[0] to AR[1+r], in slot order (R110). -/
def usedSlots (s : State) (r : Nat) : List AddrSlot := s.ar.toList.take (2 + r)

end Sys2Proof.Machine
end

