-- ==== Sys2Proof/Machine/Bus.lean ====
section
/-! DEFINITION. The host port (spec/20_memory.md): the register window's words, the buffer windows' bytes, the next
move of the host, and the command word a CMD write fetches. -/

namespace Sys2Proof.Machine

/-- ARk_LO (R36): CALL3, CALL2, CALL1, CALL0 from bit 31 down. -/
def AddrSlot.loWord (a : AddrSlot) : Word :=
  a.call[3].setWidth 32 <<< 24 ||| a.call[2].setWidth 32 <<< 16 ||| a.call[1].setWidth 32 <<< 8 |||
    a.call[0].setWidth 32

/-- ARk_HI (R37): bits 31:28 and 19 read as 0. -/
def AddrSlot.hiWord (a : AddrSlot) : Word :=
  bitAt a.ext 27 ||| bitAt a.res6 26 ||| bitAt a.res5 25 ||| bitAt a.ch 24 ||| a.ssid.setWidth 32 <<< 20 |||
    a.clen.setWidth 32 <<< 16 ||| a.call[5].setWidth 32 <<< 8 ||| a.call[4].setWidth 32

/-- A host write of ARk_LO (R36). -/
def AddrSlot.withLo (a : AddrSlot) (w : Word) : AddrSlot :=
  { a with
    call := #v[w.extractLsb' 0 8, w.extractLsb' 8 8, w.extractLsb' 16 8, w.extractLsb' 24 8, a.call[4], a.call[5]] }

/-- A host write of ARk_HI (R37). -/
def AddrSlot.withHi (a : AddrSlot) (w : Word) : AddrSlot :=
  { call := #v[a.call[0], a.call[1], a.call[2], a.call[3], w.extractLsb' 0 8, w.extractLsb' 8 8]
    clen := w.extractLsb' 16 3
    ssid := w.extractLsb' 20 4
    ch := w.getLsbD 24
    res5 := w.getLsbD 25
    res6 := w.getLsbD 26
    ext := w.getLsbD 27 }

/-- FCS, the view of CRC (R29). -/
def State.fcs (s : State) : BitVec 16 := s.crc ^^^ 0xFFFF

/-- A register as the host reads it (R51, R54): the register's fields, with every reserved bit 0. CMD reads 0 (R40). -/
def State.regWord (s : State) : Reg → Word
  | .cmd => 0
  | .status => s.status.word
  | .ilen => s.ilen.setWidth 32
  | .olen => s.olen.setWidth 32
  | .obits => s.obits
  | .crc => s.crc.setWidth 32
  | .fcs => s.fcs.setWidth 32
  | .din => s.din.setWidth 32
  | .dout => s.dout.setWidth 32
  | .nrep => s.nrep.setWidth 32
  | .hdr => s.hdr.word
  | .hlen => s.hlen.setWidth 32
  | .arLo k => s.ar[k].loWord
  | .arHi k => s.ar[k].hiWord

/-- What a host write of a register stores (R54): every field that is not reserved, as written; nothing for a
read-only register. A write of CMD stores nothing (R40): it starts a command, which `step` runs. -/
def State.setReg (s : State) (r : Reg) (w : Word) : State :=
  match r with
  | .cmd => s
  | .status => s
  | .ilen => { s with ilen := w.setWidth 16 }
  | .olen => s
  | .obits => s
  | .crc => { s with crc := w.setWidth 16 }
  | .fcs => s
  | .din => { s with din := w.setWidth 8 }
  | .dout => s
  | .nrep => { s with nrep := w.setWidth 4 }
  | .hdr => s
  | .hlen => s
  | .arLo k => { s with ar := s.ar.set k (s.ar[k].withLo w) }
  | .arHi k => { s with ar := s.ar.set k (s.ar[k].withHi w) }

/-- A word read (R53, R57): 0 where no register is assigned. -/
def State.readWord (s : State) (a : Addr) : Word :=
  match regAt a.toNat with
  | some r => s.regWord r
  | none => 0

/-- A word write (R53, R57): ignored where no register is assigned. -/
def State.writeWord (s : State) (a : Addr) (w : Word) : State :=
  match regAt a.toNat with
  | some r => s.setReg r w
  | none => s

/-- A byte read (R56, R57): 0 where no buffer byte exists. -/
def State.readByte (s : State) (a : Addr) : Byte :=
  if s.cfg.isBufferByte a.toNat then s.byteAt a.toNat else 0

/-- A byte write (R56, R57): ignored where no buffer byte exists. -/
def State.writeByte (s : State) (a : Addr) (b : Byte) : State :=
  if s.cfg.isBufferByte a.toNat then { s with mem := Memory.write s.mem a.toNat b } else s

/-- What a host read gives back goes to the host (R67). -/
def State.reply (s : State) (r : Reply) : State := { s with replies := r :: s.replies }

/-- Power-on reset (R280, R282): every register at its reset value, the buffers unspecified anew. The host's moves and
what it has read are outside the block, and the capacities are fixed (log entry 8). -/
def powerOnReset (s : State) : State := State.atPowerOn s.cfg (s.powerCycle + 1) s.inputs s.replies

/-- The effect of a move, other than a write of CMD, in the state that no longer holds it (R63, R67). -/
def applyInput (i : Input) (s : State) : State :=
  match i with
  | .writeWord a w => s.writeWord a w
  | .readWord a => s.reply (.word (s.readWord a))
  | .writeByte a b => s.writeByte a b
  | .readByte a => s.reply (.byte (s.readByte a))
  | .powerOn => powerOnReset s

/-- Whether the host interface has the move (R52, R56, R57, R67). -/
def inInterface (c : Config) (i : Input) : Bool := i.wellFormed c

/-- The command word, if the next move is a write of CMD (R80), with the state in which the command runs. -/
def fetchCommand (s : State) : Option (Word × State) :=
  match s.inputs with
  | .writeWord a w :: rest => if regAt a.toNat = some .cmd then some (w, { s with inputs := rest }) else none
  | _ => none

/-- The next move, when it is not a write of CMD. With no move pending the block is idle (R281). A move outside the
host interface is refused (R52, R56, U9). -/
def hostStep (s : State) : Host.Outcome State Fault Refusal :=
  match s.inputs with
  | [] => .next s
  | i :: rest =>
    if inInterface s.cfg i then .next (applyInput i { s with inputs := rest })
    else .refused .outsideHostInterface

end Sys2Proof.Machine
end

