-- ==== Sys2Proof/Machine/BitRev.lean ====
section
/-! DEFINITION. The byte bit-reversal pipeline: `rev8`, REV_BYTE and REV_BUF (spec/41_bitrev.md). -/

namespace Sys2Proof.Machine

/-- `rev8(b)[i] = b[7 - i]` (R140): the byte's bit 0 becomes the most significant bit. -/
def rev8 (b : Byte) : Byte :=
  byteOf (b.getLsbD 0) (b.getLsbD 1) (b.getLsbD 2) (b.getLsbD 3) (b.getLsbD 4) (b.getLsbD 5) (b.getLsbD 6)
    (b.getLsbD 7)

/-- REV_BYTE (R141). -/
def execRevByte (s : State) : Host.Outcome State Fault Refusal :=
  finish 0x20 (.ok (rev8 s.din)) (fun b t => { t with dout := b }) s

/-- The checks and the result of REV_BUF (R142). -/
def revBufResult (s : State) : Except StatusCode (List Byte) :=
  match checkedInput s with
  | .error c => .error c
  | .ok d => if fitsObuf s d.length then .ok (d.map rev8) else .error .outputOverflow

/-- REV_BUF (R142). -/
def execRevBuf (s : State) : Host.Outcome State Fault Refusal :=
  finish 0x21 (revBufResult s)
    (fun out t => { storeObuf out t with olen := BitVec.ofNat 16 out.length }) s

end Sys2Proof.Machine
end

