-- ==== Sys2Proof/Machine/Crc.lean ====
section
/-! DEFINITION. The CRC-16/CCITT frame check sequence and its four commands (spec/42_crc.md). -/

namespace Sys2Proof.Machine

/-- One bit of `crcStep` (R160): shift right, and fold in the polynomial when the bit shifted out is 1. -/
def crcShift (c : BitVec 16) : BitVec 16 :=
  if c.getLsbD 0 then (c >>> 1) ^^^ 0x8408 else c >>> 1

/-- `n` bits of `crcStep` (R160). -/
def crcShifts : Nat → BitVec 16 → BitVec 16
  | 0, c => c
  | n + 1, c => crcShifts n (crcShift c)

/-- `crcStep(c, b)` (R160). -/
def crcStep (c : BitVec 16) (b : Byte) : BitVec 16 := crcShifts 8 (c ^^^ b.setWidth 16)

/-- The CRC register after folding in a byte string (R164). -/
def crcFold (c : BitVec 16) (d : List Byte) : BitVec 16 := d.foldl crcStep c

/-- `crc16(d)` (R161). -/
def crc16 (d : List Byte) : BitVec 16 := crcFold 0xFFFF d ^^^ 0xFFFF

/-- The two FCS bytes, the more significant first (R58). -/
def fcsBytes (f : BitVec 16) : List Byte := [f.extractLsb' 8 8, f.extractLsb' 0 8]

/-- The verifier of FCS_CHECK and HDLC_DECODE (R165, R203, R205): the string's last two bytes must be the big-endian
FCS of the bytes before them, which are the result. -/
def verifyFcs (d : List Byte) : Except StatusCode (List Byte) :=
  if d.length < 2 then .error .frameTooShort
  else
    let payload := d.take (d.length - 2)
    let rx := d.getD (d.length - 2) 0 ++ d.getD (d.length - 1) 0
    if crc16 payload = rx then .ok payload else .error .fcsMismatch

/-- CRC_INIT (R162). -/
def execCrcInit (s : State) : Host.Outcome State Fault Refusal :=
  finish 0x10 (.ok 0xFFFF) (fun c t => { t with crc := c }) s

/-- CRC_BYTE (R163). -/
def execCrcByte (s : State) : Host.Outcome State Fault Refusal :=
  finish 0x11 (.ok (crcStep s.crc s.din)) (fun c t => { t with crc := c }) s

/-- The check and the result of CRC_BUF, which goes on from the present CRC (R164). -/
def crcBufResult (s : State) : Except StatusCode (BitVec 16) :=
  match checkedInput s with
  | .error c => .error c
  | .ok d => .ok (crcFold s.crc d)

/-- CRC_BUF (R164). -/
def execCrcBuf (s : State) : Host.Outcome State Fault Refusal :=
  finish 0x12 (crcBufResult s) (fun c t => { t with crc := c }) s

/-- The checks of FCS_CHECK (R165). -/
def fcsCheckResult (s : State) : Except StatusCode (List Byte) :=
  match checkedInput s with
  | .error c => .error c
  | .ok d => verifyFcs d

/-- FCS_CHECK (R165). It has no output but STATUS. -/
def execFcsCheck (s : State) : Host.Outcome State Fault Refusal :=
  finish 0x13 (fcsCheckResult s) (fun _ t => t) s

end Sys2Proof.Machine
end

