-- ==== Sys2Proof/Machine/Hdlc.lean ====
section
/-! DEFINITION. The HDLC bit framer and deframer: serialization, the stuffing engine, HDLC_ENCODE and HDLC_DECODE
(spec/43_hdlc.md). -/

namespace Sys2Proof.Machine

/-- FLAGBITS, the bits of 0x7E (R10). -/
def flagBits : Bits := [false, true, true, true, true, true, true, false]

/-- A byte's bits, most significant first (R190). -/
def byteBits (b : Byte) : Bits :=
  [b.getLsbD 7, b.getLsbD 6, b.getLsbD 5, b.getLsbD 4, b.getLsbD 3, b.getLsbD 2, b.getLsbD 1, b.getLsbD 0]

/-- `bitsMSB(d)` (R190). -/
def bitsMSB (d : List Byte) : Bits := d.flatMap byteBits

/-- The byte whose bit 7 - j is element j of the sequence, and 0 past its end (R191). -/
def packByte (s : Bits) : Byte :=
  byteOf (s.getD 0 false) (s.getD 1 false) (s.getD 2 false) (s.getD 3 false) (s.getD 4 false) (s.getD 5 false)
    (s.getD 6 false) (s.getD 7 false)

/-- `ceil(n / 8)`, the bytes that `n` bits take (R191). -/
def octets (n : Nat) : Nat := (n + 7) / 8

/-- `n` bytes of packed bits, from the front of the sequence. -/
def packBytes : Nat → Bits → List Byte
  | 0, _ => []
  | n + 1, s => packByte s :: packBytes n (s.drop 8)

/-- `packMSB(s)` (R191): the last byte is padded with 0 bits at its least significant end. -/
def packMSB (s : Bits) : List Byte := packBytes (octets s.length) s

/-- `stuff` (R192) with the run counter at `ones`. -/
def stuffFrom : Nat → Bits → Bits
  | _, [] => []
  | ones, true :: s =>
    if ones + 1 = 5 then true :: false :: stuffFrom 0 s else true :: stuffFrom (ones + 1) s
  | _, false :: s => false :: stuffFrom 0 s

/-- `stuff(s)` (R192). -/
def stuff (s : Bits) : Bits := stuffFrom 0 s

/-- The three results of `destuffScan` (R193). -/
inductive ScanResult where
  /-- `Close(body, k)`: the closing flag's first bit is at position `k` -/
  | close (body : Bits) (k : Nat)
  /-- `Violation(q)`: the offending bit is at position `q` -/
  | violation (q : Nat)
  | noClose
deriving DecidableEq, Repr

/-- FLAGBITS stands at the front of the sequence. -/
def startsWithFlag (s : Bits) : Bool := s.take 8 == flagBits

/-- The loop of `destuffScan` (R193), at position `j` with the raw bits from there on, the run counter, and the body
so far in reverse. -/
def scanFrom : Bits → Nat → Nat → Bits → ScanResult
  | [], _, _, _ => .noClose
  | b :: rest, j, ones, rbody =>
    if startsWithFlag (b :: rest) then .close rbody.reverse j
    else if b then
      if ones + 1 = 6 then .violation j else scanFrom rest (j + 1) (ones + 1) (true :: rbody)
    else scanFrom rest (j + 1) 0 (if ones = 5 then rbody else false :: rbody)

/-- `destuffScan(raw, p)` (R193). -/
def destuffScan (raw : Bits) (p : Nat) : ScanResult := scanFrom (raw.drop p) p 0 []

/-- The least index, counted from `i`, at which FLAGBITS stands (R203). -/
def findFlag : Bits → Nat → Option Nat
  | [], _ => none
  | b :: rest, i => if startsWithFlag (b :: rest) then some i else findFlag rest (i + 1)

/-- The body of a frame before stuffing: the reversed payload and its FCS (R200). -/
def frameBody (payload : List Byte) : List Byte :=
  let r := payload.map rev8
  r ++ fcsBytes (crc16 r)

/-- The line bits of a frame: the stuffed body between two flags, which are not stuffed (R194, R200). -/
def frameLine (payload : List Byte) : Bits :=
  flagBits ++ stuff (bitsMSB (frameBody payload)) ++ flagBits

/-- The checks and the result of HDLC_ENCODE, as line bits (R200). -/
def hdlcEncodeResult (s : State) : Except StatusCode Bits :=
  match checkedInput s with
  | .error c => .error c
  | .ok d =>
    let line := frameLine d
    if fitsObuf s (octets line.length) then .ok line else .error .outputOverflow

/-- HDLC_ENCODE (R200). -/
def execHdlcEncode (s : State) : Host.Outcome State Fault Refusal :=
  finish 0x30 (hdlcEncodeResult s)
    (fun line t =>
      { storeObuf (packMSB line) t with
        olen := BitVec.ofNat 16 (octets line.length)
        obits := BitVec.ofNat 32 line.length }) s

/-- Deframing and verifying line bits (R203): the payload, still bit-reversed, and the number of bits consumed. -/
def deframe (raw : Bits) : Except StatusCode (List Byte × Nat) :=
  match findFlag raw 0 with
  | none => .error .noOpeningFlag
  | some i =>
    match destuffScan raw (i + 8) with
    | .violation _ => .error .bitStuffingViolation
    | .noClose => .error .noClosingFlag
    | .close body k =>
      if body.length % 8 ≠ 0 then .error .nonOctetFrame
      else
        match verifyFcs (packMSB body) with
        | .error c => .error c
        | .ok p => .ok (p, k + 8)

/-- The checks and the result of HDLC_DECODE: the payload and the number of bits consumed (R203). -/
def hdlcDecodeResult (s : State) : Except StatusCode (List Byte × Nat) :=
  match checkedInput s with
  | .error c => .error c
  | .ok d =>
    match deframe (bitsMSB d) with
    | .error c => .error c
    | .ok (p, used) => if fitsObuf s p.length then .ok (p.map rev8, used) else .error .outputOverflow

/-- HDLC_DECODE (R203). -/
def execHdlcDecode (s : State) : Host.Outcome State Fault Refusal :=
  finish 0x31 (hdlcDecodeResult s)
    (fun out t =>
      { storeObuf out.1 t with
        olen := BitVec.ofNat 16 out.1.length
        obits := BitVec.ofNat 32 out.2 }) s

end Sys2Proof.Machine
end

