-- ==== Sys2Proof/Machine/Address.lean ====
section
/-! DEFINITION. The AX.25 address-field serializer and parser: ADDR_ENCODE and ADDR_DECODE (spec/40_address.md). -/

namespace Sys2Proof.Machine

/-- The padding character, an ASCII space (R101, G1). -/
def space : Byte := 0x20

/-- The character a slot sends at position `i`: its own below CLEN, a space from there on (R101). -/
def AddrSlot.sentChar (a : AddrSlot) (i : Fin 6) : Byte := if i.val < a.clen.toNat then a.call[i] else space

/-- The SSID byte (R100, R101): ch, RES6, RES5, SSID and the extension bit, from bit 7 down to bit 0. -/
def AddrSlot.ssidByte (a : AddrSlot) (ext : Bool) : Byte :=
  byteOf a.ch a.res6 a.res5 (a.ssid.getLsbD 3) (a.ssid.getLsbD 2) (a.ssid.getLsbD 1) (a.ssid.getLsbD 0) ext

/-- `encodeAddress(a, ext)` (R101). -/
def encodeAddress (a : AddrSlot) (ext : Bool) : List Byte :=
  [a.sentChar 0 <<< 1, a.sentChar 1 <<< 1, a.sentChar 2 <<< 1, a.sentChar 3 <<< 1, a.sentChar 4 <<< 1,
    a.sentChar 5 <<< 1, a.ssidByte ext]

/-- The address field of some slots in path order, with the extension bit on the last group only (R103). -/
def encodeField : List AddrSlot → List Byte
  | [] => []
  | [a] => encodeAddress a true
  | a :: b :: slots => encodeAddress a false ++ encodeField (b :: slots)

/-- The length that trimming trailing spaces leaves (R102): one more than the position of the last character that is
not a space. `i` is the position of the first character of the list, `len` the length so far. -/
def trimmedLength : List Byte → Nat → Nat → Nat
  | [], _, len => len
  | c :: cs, i, len => trimmedLength cs (i + 1) (if c = space then len else i + 1)

/-- `decodeAddress(g)` (R102). -/
def decodeAddress (g : Vector Byte 7) : AddrSlot :=
  let call : Vector Byte 6 := #v[g[0] >>> 1, g[1] >>> 1, g[2] >>> 1, g[3] >>> 1, g[4] >>> 1, g[5] >>> 1]
  { call := call
    clen := BitVec.ofNat 3 (trimmedLength call.toList 0 0)
    ssid := g[6].extractLsb' 1 4
    ch := g[6].getLsbD 7
    res5 := g[6].getLsbD 5
    res6 := g[6].getLsbD 6
    ext := g[6].getLsbD 0 }

/-- The length of an address field with `r` repeaters (R103). -/
def fieldLength (r : Nat) : Nat := 14 + 7 * r

/-- The checks and the result of ADDR_ENCODE: the field's bytes (R110). -/
def addrEncodeResult (s : State) : Except StatusCode (List Byte) :=
  let r := s.nrep.toNat
  if 8 < r then .error .tooManyRepeaters
  else if (usedSlots s r).any (fun a => 6 < a.clen.toNat) then .error .invalidCallsignLength
  else if fitsObuf s (fieldLength r) then .ok (encodeField (usedSlots s r))
  else .error .outputOverflow

/-- ADDR_ENCODE (R110). -/
def execAddrEncode (s : State) : Host.Outcome State Fault Refusal :=
  finish 0x40 (addrEncodeResult s)
    (fun field t =>
      { storeObuf field t with
        olen := BitVec.ofNat 16 field.length
        hlen := BitVec.ofNat 8 field.length }) s

/-- The repeater walk of ADDR_DECODE (R120), with repeater `j` next and at most `left` of them still allowed: the
repeaters up to the first whose extension bit is 1. -/
def walkRepeaters (s : State) : Nat → Nat → Except StatusCode (List AddrSlot)
  | 0, _ => .error .tooManyRepeaters
  | left + 1, j =>
    if s.ilen.toNat < 7 * (j + 2) then .error .truncatedAddressField
    else
      let p := decodeAddress (inputGroup s (j + 1))
      if p.ext then .ok [p]
      else
        match walkRepeaters s left (j + 1) with
        | .error c => .error c
        | .ok ps => .ok (p :: ps)

/-- What ADDR_DECODE finds: the destination, the source and the repeaters in path order. -/
structure ParsedField where
  dst : AddrSlot
  src : AddrSlot
  repeaters : List AddrSlot
deriving DecidableEq, Repr

/-- The checks and the result of ADDR_DECODE (R120). The destination's extension bit is not examined. -/
def addrDecodeResult (s : State) : Except StatusCode ParsedField :=
  if s.cfg.ibufBytes < s.ilen.toNat then .error .lengthOutOfRange
  else if s.ilen.toNat < 14 then .error .truncatedAddressField
  else
    let d := decodeAddress (inputGroup s 0)
    let src := decodeAddress (inputGroup s 1)
    if src.ext then .ok { dst := d, src := src, repeaters := [] }
    else
      match walkRepeaters s 8 1 with
      | .error c => .error c
      | .ok ps => .ok { dst := d, src := src, repeaters := ps }

/-- ADDR_DECODE (R120). -/
def execAddrDecode (s : State) : Host.Outcome State Fault Refusal :=
  finish 0x41 (addrDecodeResult s)
    (fun f t =>
      { t with
        ar := setSlots t.ar 0 (f.dst :: f.src :: f.repeaters)
        nrep := BitVec.ofNat 4 f.repeaters.length
        hdr := { cr := f.dst.ch, srcCr := f.src.ch }
        hlen := BitVec.ofNat 8 (fieldLength f.repeaters.length) }) s

end Sys2Proof.Machine
end

