-- ==== Sys2Proof/Machine/System.lean ====
section
/-! DEFINITION. The system command SOFT_RESET (spec/44_system.md). An illegal command word is `illegalCommand` in
Ops.lean. -/

namespace Sys2Proof.Machine

/-- SOFT_RESET (R230). -/
def execSoftReset (s : State) : Host.Outcome State Fault Refusal :=
  finish 0x01 (.ok ()) (fun _ t => resetRegisters t) s

end Sys2Proof.Machine
end

