-- ==== Sys2Proof/Machine/Dispatch.lean ====
section
/-! DEFINITION. One arm per command. -/

namespace Sys2Proof.Machine

/-- Run one command (R42). -/
def exec (i : Instr) (s : State) : Host.Outcome State Fault Refusal :=
  match i with
  | .softReset => Sys2Proof.Machine.execSoftReset s
  | .crcInit => Sys2Proof.Machine.execCrcInit s
  | .crcByte => Sys2Proof.Machine.execCrcByte s
  | .crcBuf => Sys2Proof.Machine.execCrcBuf s
  | .fcsCheck => Sys2Proof.Machine.execFcsCheck s
  | .revByte => Sys2Proof.Machine.execRevByte s
  | .revBuf => Sys2Proof.Machine.execRevBuf s
  | .hdlcEncode => Sys2Proof.Machine.execHdlcEncode s
  | .hdlcDecode => Sys2Proof.Machine.execHdlcDecode s
  | .addrEncode => Sys2Proof.Machine.execAddrEncode s
  | .addrDecode => Sys2Proof.Machine.execAddrDecode s

end Sys2Proof.Machine
end

