-- ==== Sys2Proof/Machine/Step.lean ====
section
/-! DEFINITION. One step: the host's next move takes effect, and a write of CMD runs one command to its end. -/

namespace Sys2Proof.Machine

/-- The command that a CMD write of `w` starts (R80, R231). -/
def runWord (w : Word) (s : State) : Host.Outcome State Fault Refusal :=
  match decode w with
  | .ok i => exec i s
  | .error _ => .next (illegalCommand w s)

/-- One step (R21, R62, R64): accesses and commands take effect one at a time, in the order the host issues them, and
a command is over when its CMD write is. -/
def step (s : State) : Host.Outcome State Fault Refusal :=
  match fetchCommand s with
  | some (w, t) => runWord w t
  | none => hostStep s

/-- The state in which the host's very next move writes the command word to CMD (log entry 1). The block has no
program memory: a command word comes from the host. -/
def State.withFetchWord (s : State) (nbits w : Nat) : State :=
  { s with inputs := .writeWord Reg.cmd.addr (BitVec.ofNat 32 (w % 2 ^ nbits)) :: s.inputs }

end Sys2Proof.Machine
end

