-- ==== Sys2Proof/Safety.lean ====
section
/-! DEFINITION. What the claims call a sound state and a legal run of the host. -/

namespace Sys2Proof.Machine

/-- The addresses whose bytes the memory lists are buffer bytes that exist (R41, R57). -/
def Memory.within (c : Config) (m : Memory) : Prop := ∀ x ∈ m, c.isBufferByte x.1 = true

/-- The length of an address field that the block can have produced or consumed: none yet, or one of 0 to 8
repeaters (R34). -/
def legalHlen (h : BitVec 8) : Prop := h = 0 ∨ ∃ r, r ≤ 8 ∧ h.toNat = fieldLength r

/-- The invariant of the block. -/
structure State.Inv (s : State) : Prop where
  /-- the capacities are legal (R6) -/
  cfg_legal : s.cfg.wellFormed = true
  /-- the memory is in its canonical form -/
  mem_wf : Memory.wf s.mem
  /-- only buffer bytes that exist are stored (R41, R56, R57) -/
  mem_within : Memory.within s.cfg s.mem
  /-- OLEN counts bytes that OBUF has (R26, R250) -/
  olen_fits : s.olen.toNat ≤ s.cfg.obufBytes
  /-- OBITS counts bits that a buffer has (R27) -/
  obits_fits : s.obits.toNat ≤ 8 * 65535
  /-- HLEN is 0 or the length of an address field (R34) -/
  hlen_legal : legalHlen s.hlen

/-- The host's next move, if it has one, is in the host interface (R67). -/
def State.LegalMove (s : State) : Prop := ∀ i rest, s.inputs = i :: rest → i.wellFormed s.cfg = true

/-- An outcome that is a next state. -/
def Proceeds (o : Host.Outcome State Fault Refusal) : Prop := ∃ t, o = .next t

end Sys2Proof.Machine
end

