-- ==== Sys2Proof/Certificates/Slice0/Obligations.lean ====
section
/-! DEFINITION. The statements for the provers. `Sys2Proof.Claims` holds the words they are written in, most of them
transcribed from the spec's rules and not from the model's definitions. -/

namespace Sys2Proof.Claims

open Sys2Proof.Machine

/-- `IBUF[0 .. ILEN-1]` is the byte string `d`. -/
def InputIs (s : State) (d : List Byte) : Prop :=
  s.ilen.toNat = d.length ∧ ∀ i, i < d.length → s.ibuf i = d.getD i 0

/-- ILEN is within IBUF's capacity (R251). -/
def Readable (s : State) : Prop := s.ilen.toNat ≤ s.cfg.ibufBytes

/-- The command ends with the status code and changes nothing but STATUS (R252). -/
def Raises (i : Instr) (op : BitVec 8) (code : StatusCode) (s : State) : Prop :=
  exec i s = .next { s with status := { code := code, lastOpcode := op } }

/-- Every byte outside OBUF[0 .. n-1] reads as before. -/
def OnlyObufBelow (n : Nat) (s t : State) : Prop :=
  ∀ a, (a < 0x20000 ∨ 0x20000 + n ≤ a) → t.byteAt a = s.byteAt a

/-- `raw[p .. p+8) == FLAGBITS` (R10). -/
def FlagAt (raw : Bits) (p : Nat) : Prop :=
  (raw.drop p).take 8 = [false, true, true, true, true, true, true, false]

/-- `p` is the least index at which FLAGBITS stands (R203). -/
def FirstFlag (raw : Bits) (p : Nat) : Prop := FlagAt raw p ∧ ∀ q, q < p → ¬ FlagAt raw q

/-- The sequence with the bit at position `p` inverted. -/
def flipBit (s : Bits) (p : Nat) : Bits := s.set p (!(s.getD p false))

/-- The 16-bit value of two bytes, the first the more significant (R58). -/
def bigEndian (hi lo : Byte) : BitVec 16 := BitVec.ofNat 16 (256 * hi.toNat + lo.toNat)

/-- `crcStep` as R160 writes it: eight times the shift, from the CRC with the byte folded in. -/
def ruleCrcStep (c : BitVec 16) (b : Byte) : BitVec 16 :=
  (fun c : BitVec 16 => if c.toNat % 2 = 1 then (c >>> 1) ^^^ 0x8408 else c >>> 1)^[8] (c ^^^ b.setWidth 16)

/-- `crc16` as R161 writes it. -/
def ruleCrc16 (d : List Byte) : BitVec 16 := d.foldl ruleCrcStep 0xFFFF ^^^ 0xFFFF

/-- The loop of `stuff` as R192 writes it, with its two variables `out` and `ones`. -/
def ruleStuff (s : Bits) : Bits :=
  (s.foldl
    (fun (st : Bits × Nat) b =>
      let out := st.1 ++ [b]
      if b then (if st.2 + 1 = 5 then (out ++ [false], 0) else (out, st.2 + 1)) else (out, 0))
    ([], 0)).1

/-- The loop of `destuffScan` as R193 writes it, by position in `raw`; `fuel` bounds the number of rounds. -/
def ruleScan (raw : Bits) : Nat → Nat → Nat → Bits → ScanResult
  | 0, _, _, _ => .noClose
  | fuel + 1, j, ones, body =>
    if j + 8 ≤ raw.length ∧ (raw.drop j).take 8 = [false, true, true, true, true, true, true, false] then
      .close body j
    else if raw.length ≤ j then .noClose
    else if raw.getD j false then
      if ones + 1 = 6 then .violation j else ruleScan raw fuel (j + 1) (ones + 1) (body ++ [true])
    else ruleScan raw fuel (j + 1) 0 (if ones ≠ 5 then body ++ [false] else body)

/-- The body of a frame before stuffing (R200): the reversed payload, then its FCS with the high byte first. -/
def ruleBody (d : List Byte) : List Byte :=
  let f := ruleCrc16 (d.map BitVec.reverse)
  d.map BitVec.reverse ++ [BitVec.ofNat 8 (f.toNat / 256), BitVec.ofNat 8 (f.toNat % 256)]

/-- The line bits of a frame (R200). -/
def ruleLine (d : List Byte) : Bits :=
  [false, true, true, true, true, true, true, false] ++ ruleStuff (bitsMSB (ruleBody d)) ++
    [false, true, true, true, true, true, true, false]

/-- The extension bit of group `k` of the address field in IBUF (R100, R120). -/
def groupExt (s : State) (k : Nat) : Bool := (s.ibuf (7 * k + 6)).getLsbD 0

/-- A slot that meets the source's invariants (R121). -/
def ValidSlot (a : AddrSlot) : Prop :=
  a.clen.toNat ≤ 6 ∧
  (∀ i : Fin 6, i.val < a.clen.toNat → 0x21 ≤ (a.call[i]).toNat ∧ (a.call[i]).toNat ≤ 0x7F) ∧
  (∀ i : Fin 6, a.clen.toNat ≤ i.val → a.call[i] = 0x20)

/-- The bits of a register word that a host write stores (R25, R28, R30, R32, R36, R37, R54); 0 for a register that
is not read/write (R51). -/
def writable : Reg → Word
  | .ilen => 0x0000FFFF
  | .crc => 0x0000FFFF
  | .din => 0x000000FF
  | .nrep => 0x0000000F
  | .arLo _ => 0xFFFFFFFF
  | .arHi _ => 0x0FF7FFFF
  | _ => 0

/-- The status codes that a command can end with (R250, last column). -/
def codesOf : Instr → List StatusCode
  | .softReset => [.ok]
  | .crcInit => [.ok]
  | .crcByte => [.ok]
  | .crcBuf => [.ok, .lengthOutOfRange]
  | .fcsCheck => [.ok, .lengthOutOfRange, .frameTooShort, .fcsMismatch]
  | .revByte => [.ok]
  | .revBuf => [.ok, .lengthOutOfRange, .outputOverflow]
  | .hdlcEncode => [.ok, .lengthOutOfRange, .outputOverflow]
  | .hdlcDecode => [.ok, .lengthOutOfRange, .noOpeningFlag, .bitStuffingViolation, .noClosingFlag, .nonOctetFrame,
      .frameTooShort, .fcsMismatch, .outputOverflow]
  | .addrEncode => [.ok, .tooManyRepeaters, .invalidCallsignLength, .outputOverflow]
  | .addrDecode => [.ok, .lengthOutOfRange, .truncatedAddressField, .tooManyRepeaters]

/-- The opcode map of R83 with whole command words. -/
def commandWords : List (Word × Instr) :=
  [(0x00000001, .softReset), (0x00000010, .crcInit), (0x00000011, .crcByte), (0x00000012, .crcBuf),
    (0x00000013, .fcsCheck), (0x00000020, .revByte), (0x00000021, .revBuf), (0x00000030, .hdlcEncode),
    (0x00000031, .hdlcDecode), (0x00000040, .addrEncode), (0x00000041, .addrDecode)]

/-- The register map of R51 with every offset written out, the address slots as 0x040 + 8k and 0x044 + 8k. -/
def registerMap : List (Nat × Reg) :=
  [(0x000, .cmd), (0x004, .status), (0x008, .ilen), (0x00C, .olen), (0x010, .obits), (0x014, .crc),
    (0x018, .fcs), (0x01C, .din), (0x020, .dout), (0x024, .nrep), (0x028, .hdr), (0x02C, .hlen),
    (0x040, .arLo 0), (0x044, .arHi 0), (0x048, .arLo 1), (0x04C, .arHi 1),
    (0x050, .arLo 2), (0x054, .arHi 2), (0x058, .arLo 3), (0x05C, .arHi 3),
    (0x060, .arLo 4), (0x064, .arHi 4), (0x068, .arLo 5), (0x06C, .arHi 5),
    (0x070, .arLo 6), (0x074, .arHi 6), (0x078, .arLo 7), (0x07C, .arHi 7),
    (0x080, .arLo 8), (0x084, .arHi 8), (0x088, .arLo 9), (0x08C, .arHi 9)]

/-- The number of a status code (R250). -/
def ruleCode : StatusCode → Nat
  | .ok => 0
  | .invalidCallsignLength => 1
  | .tooManyRepeaters => 2
  | .truncatedAddressField => 3
  | .bitStuffingViolation => 4
  | .fcsMismatch => 5
  | .noOpeningFlag => 6
  | .noClosingFlag => 7
  | .nonOctetFrame => 8
  | .frameTooShort => 9
  | .lengthOutOfRange => 10
  | .outputOverflow => 11
  | .illegalCommand => 12

/-- The number a register reads as: each field times the weight of its lowest bit, by the layouts of R23, R25 to R34,
R36, R37 and R40. -/
def ruleWord (s : State) : Reg → Nat
  | .cmd => 0
  | .status => s.status.lastOpcode.toNat * 2 ^ 8 + ruleCode s.status.code
  | .ilen => s.ilen.toNat
  | .olen => s.olen.toNat
  | .obits => s.obits.toNat
  | .crc => s.crc.toNat
  | .fcs => 0xFFFF - s.crc.toNat
  | .din => s.din.toNat
  | .dout => s.dout.toNat
  | .nrep => s.nrep.toNat
  | .hdr => s.hdr.srcCr.toNat * 2 + s.hdr.cr.toNat
  | .hlen => s.hlen.toNat
  | .arLo k =>
    (s.ar[k]).call[3].toNat * 2 ^ 24 + (s.ar[k]).call[2].toNat * 2 ^ 16 + (s.ar[k]).call[1].toNat * 2 ^ 8 +
      (s.ar[k]).call[0].toNat
  | .arHi k =>
    (s.ar[k]).ext.toNat * 2 ^ 27 + (s.ar[k]).res6.toNat * 2 ^ 26 + (s.ar[k]).res5.toNat * 2 ^ 25 +
      (s.ar[k]).ch.toNat * 2 ^ 24 + (s.ar[k]).ssid.toNat * 2 ^ 20 + (s.ar[k]).clen.toNat * 2 ^ 16 +
      (s.ar[k]).call[5].toNat * 2 ^ 8 + (s.ar[k]).call[4].toNat

/-- The line bits that OBUF holds after HDLC_ENCODE: its first OBITS bits, each byte's most significant bit first
(R59, R190). -/
def obufLine (t : State) : Bits :=
  (List.range t.obits.toNat).map (fun p => (t.obuf (p / 8)).getLsbD (7 - p % 8))

end Sys2Proof.Claims

open Sys2Proof Sys2Proof.Machine Sys2Proof.Claims

/-! ## Encoding and the register map -/

/-- R83, R84: a word decodes to a command exactly when the opcode map pairs them; every other word is ILLEGAL. -/
def Obligations.DecodeFollowsTheOpcodeMap : Prop :=
  ∀ (w : Word), (∀ i, decode w = .ok i ↔ (w, i) ∈ commandWords) ∧
    ((∀ i, (w, i) ∉ commandWords) → ∃ e, decode w = .error e)

/-- Encoding and decoding agree in both directions (R80, R83, R84): every well-formed command's word decodes to it, and
a word that decodes to a command is that command's word, with no bit dropped. -/
def Obligations.EncodingAndDecodingAgree : Prop :=
  (∀ i : Instr, i.wellFormed = true → decode (encode i) = .ok i) ∧
  (∀ (w : Word) (i : Instr), decode w = .ok i → i.wellFormed = true ∧ encode i = w)

/-- A word of each family, written out from R83. -/
def Obligations.WrittenOutWordsDecode : Prop :=
  decode 0b00000000000000000000000000000001 = .ok .softReset ∧
  decode 0b00000000000000000000000000010011 = .ok .fcsCheck ∧
  decode 0b00000000000000000000000000100001 = .ok .revBuf ∧
  decode 0b00000000000000000000000000110001 = .ok .hdlcDecode ∧
  decode 0b00000000000000000000000001000000 = .ok .addrEncode ∧
  decode 0b00000000000000000000000100110000 = .error .reservedBits ∧
  decode 0b00000000000000000000000000000000 = .error .unassignedOpcode

/-- An offset is a register's exactly when the register map of R51, with its offsets written out, pairs them, and each
register's offset is the one the map gives it: no two registers share one. -/
def Obligations.RegisterMapHasOneRegisterPerOffset : Prop :=
  ∀ (off : Nat) (r : Reg), (regAt off = some r ↔ (off, r) ∈ registerMap) ∧ (off = r.offset ↔ (off, r) ∈ registerMap)

/-- LOAD is the byte writes in order, at rising IBUF addresses (R86). -/
def Obligations.LoadIsByteWritesInOrder : Prop :=
  ∀ (i : Nat) (bs : List Byte), (Stmt.load i bs).inputs.length = bs.length ∧
    ∀ j, j < bs.length →
      (Stmt.load i bs).inputs[j]? = some (.writeByte (BitVec.ofNat 18 (0x10000 + i + j)) (bs.getD j 0))

/-! ## The host port -/

/-- A CMD write whose word decodes to a command runs that command, in the state without the move (R21, R80). -/
def Obligations.StepRunsTheDecodedCommand : Prop :=
  ∀ (s : State) (w : Word) (i : Instr) (rest : List Input),
    s.inputs = .writeWord 0x00000 w :: rest → decode w = .ok i → step s = exec i { s with inputs := rest }

/-- R231, R85: a command word with nonzero RSVD bits or an opcode not in the map writes IllegalCommand and its own
bits 7:0 to STATUS, and changes nothing else. -/
def Obligations.IllegalWordOnlyWritesStatus : Prop :=
  ∀ (s : State) (w : Word) (rest : List Input),
    s.inputs = .writeWord 0x00000 w :: rest →
    (256 ≤ w.toNat ∨
      w.toNat % 256 ∉ [0x01, 0x10, 0x11, 0x12, 0x13, 0x20, 0x21, 0x30, 0x31, 0x40, 0x41]) →
    step s = .next
      { s with
        inputs := rest
        status := { code := .illegalCommand, lastOpcode := BitVec.ofNat 8 (w.toNat % 256) } }

/-- R281: with no move of the host pending, the block stays as it is. -/
def Obligations.IdleBlockStaysAsItIs : Prop :=
  ∀ s : State, s.inputs = [] → step s = .next s

/-- Power-on and SOFT_RESET leave the same registers but for LAST_OPCODE (R282). What happens to the model's own
fields at power-on is the model's choice (log entry 8). -/
def Obligations.PowerOnAndSoftResetAgree : Prop :=
  ∀ (s : State) (rest : List Input), s.inputs = .powerOn :: rest →
    ∃ t u, step s = .next t ∧ exec .softReset s = .next u ∧
      (∀ r, r ≠ Reg.status → t.regWord r = u.regWord r) ∧
      t.regWord .status = 0x00000000 ∧ u.regWord .status = 0x00000100 ∧
      (∀ a, t.byteAt a = Config.powerOnByte (s.powerCycle + 1) a) ∧ (∀ a, u.byteAt a = s.byteAt a) ∧
      t.cfg = s.cfg ∧ t.inputs = rest ∧ t.replies = s.replies ∧ t.powerCycle = s.powerCycle + 1

/-- A register read after it is written gives the written word with every reserved bit 0, and a read-only register
gives what it gave before (R54). CMD, whose write starts a command, reads 0 and changes nothing (R40). -/
def Obligations.RegisterReadsBackItsWritableBits : Prop :=
  (∀ (s : State) (r : Reg) (w : Word) (rest : List Input), r ≠ .cmd →
    s.inputs = .writeWord r.addr w :: .readWord r.addr :: rest →
    ∃ t u, step s = .next t ∧ step t = .next u ∧ u.inputs = rest ∧
      u.replies = .word (if writable r = 0 then s.regWord r else w &&& writable r) :: s.replies) ∧
  (∀ (s : State) (rest : List Input), s.inputs = .readWord 0x00000 :: rest →
    step s = .next { s with inputs := rest, replies := .word 0 :: s.replies })

/-- The frame of a register write (R63): every other register but the view FCS of CRC, every buffer byte, and what the
host has read stay as they are. -/
def Obligations.RegisterWriteLeavesTheRest : Prop :=
  ∀ (s : State) (r : Reg) (w : Word) (rest : List Input), r ≠ .cmd →
    s.inputs = .writeWord r.addr w :: rest →
    ∃ t, step s = .next t ∧
      (∀ r', r' ≠ r → ¬ (r = .crc ∧ r' = .fcs) → t.regWord r' = s.regWord r') ∧
      t.mem = s.mem ∧ t.cfg = s.cfg ∧ t.inputs = rest ∧ t.replies = s.replies ∧ t.powerCycle = s.powerCycle

/-- No read in the host interface has a side effect, and reading an address twice gives the same value twice (R63).
That a word read at a hole of a buffer window is in the interface is the model's reading of R57 against R56 (log
entry 6). -/
def Obligations.ReadsHaveNoSideEffect : Prop :=
  ∀ (s : State) (i : Input) (rest : List Input),
    ((∃ a, i = .readWord a) ∨ (∃ a, i = .readByte a)) → i.wellFormed s.cfg = true →
    s.inputs = i :: i :: rest →
    ∃ t u v, step s = .next t ∧ step t = .next u ∧
      t = { s with inputs := i :: rest, replies := v :: s.replies } ∧
      u = { s with inputs := rest, replies := v :: v :: s.replies }

/-- R56: a byte written to a buffer byte that exists is read back, and every other byte reads as before; at an address
where no buffer byte exists the write is ignored and the read gives 0. -/
def Obligations.BufferByteReadsBack : Prop :=
  ∀ (s : State) (a : Addr) (b : Byte) (rest : List Input), 0x01000 ≤ a.toNat →
    s.inputs = .writeByte a b :: .readByte a :: rest →
    ∃ t u, step s = .next t ∧ step t = .next u ∧
      (((0x10000 ≤ a.toNat ∧ a.toNat < 0x10000 + s.cfg.ibufBytes) ∨
          (0x20000 ≤ a.toNat ∧ a.toNat < 0x20000 + s.cfg.obufBytes)) →
        t = { s with inputs := .readByte a :: rest, mem := t.mem } ∧
        (∀ x, t.byteAt x = if x = a.toNat then b else s.byteAt x) ∧
        u = { t with inputs := rest, replies := .byte b :: s.replies }) ∧
      (¬ ((0x10000 ≤ a.toNat ∧ a.toNat < 0x10000 + s.cfg.ibufBytes) ∨
          (0x20000 ≤ a.toNat ∧ a.toNat < 0x20000 + s.cfg.obufBytes)) →
        u = { s with inputs := rest, replies := .byte 0 :: s.replies })

/-- R53: at a 4-byte aligned offset of the register window that is no register's, a word write is ignored and a word
read gives 0. -/
def Obligations.UnassignedOffsetsReadZero : Prop :=
  ∀ (s : State) (a : Addr) (w : Word) (rest : List Input),
    a.toNat < 0x01000 → a.toNat % 4 = 0 → (∀ r : Reg, a.toNat ≠ r.offset) →
    s.inputs = .writeWord a w :: .readWord a :: rest →
    step s = .next { s with inputs := .readWord a :: rest } ∧
      step { s with inputs := .readWord a :: rest } =
        .next { s with inputs := rest, replies := .word 0 :: s.replies }

/-- At a 4-byte aligned address outside the register window where no buffer byte exists, a word write is ignored and a
word read gives 0. That a word access reaches the holes of the two buffer windows is the model's reading of R57 against
R56 (log entry 6). -/
def Obligations.HolesReadZeroAsWords : Prop :=
  ∀ (s : State) (a : Addr) (w : Word) (rest : List Input),
    0x01000 ≤ a.toNat → a.toNat % 4 = 0 →
    ¬ ((0x10000 ≤ a.toNat ∧ a.toNat < 0x10000 + s.cfg.ibufBytes) ∨
        (0x20000 ≤ a.toNat ∧ a.toNat < 0x20000 + s.cfg.obufBytes)) →
    s.inputs = .writeWord a w :: .readWord a :: rest →
    step s = .next { s with inputs := .readWord a :: rest } ∧
      step { s with inputs := .readWord a :: rest } =
        .next { s with inputs := rest, replies := .word 0 :: s.replies }

/-- The block stops only on a move outside the host interface, and then by that name (R52, R56, R67): an unaligned word,
a byte in the register window, or a word at a buffer byte that exists. That a word at a hole of a buffer window is
inside the interface is the model's reading (log entry 6), and that the model refuses a move the spec gives no meaning
is log entry 7. -/
def Obligations.OnlyMovesOutsideTheInterfaceAreRefused : Prop :=
  ∀ (s : State) (x : Refusal), step s = .refused x ↔
    x = .outsideHostInterface ∧ ∃ i rest, s.inputs = i :: rest ∧
      ((∃ a, (i = .readWord a ∨ ∃ w, i = .writeWord a w) ∧
          (a.toNat % 4 ≠ 0 ∨ s.cfg.isBufferByte a.toNat = true)) ∨
        (∃ a, (i = .readByte a ∨ ∃ b, i = .writeByte a b) ∧ a.toNat < 0x01000))

/-- A host that keeps to the interface always gets a next state (R67, R252, R255). That word accesses at the holes of
the buffer windows are in the interface is the model's reading of R57 against R56 (log entry 6). -/
def Obligations.LegalMovesAlwaysProceed : Prop :=
  ∀ s : State, s.LegalMove → ∃ t, step s = .next t

/-- Moves take effect one at a time, in the order the host issues them, and only a read gives the host something (R64).
That a power-on leaves the moves still to come, the replies and the capacities as they are is the model's choice (log
entry 8). -/
def Obligations.StepsTakeTheHostsMovesInOrder : Prop :=
  ∀ (s t : State), step s = .next t →
    (s.inputs = [] ∧ t = s) ∨
    (∃ i, s.inputs = i :: t.inputs ∧ t.cfg = s.cfg ∧
      ((∃ a, i = .readWord a ∨ i = .readByte a) → ∃ v, t.replies = v :: s.replies) ∧
      ((∀ a, i ≠ .readWord a ∧ i ≠ .readByte a) → t.replies = s.replies))

/-- STATUS reads as LAST_OPCODE in bits 15:8 over the number of the code (R23, R250). -/
def Obligations.StatusWordShowsOpcodeAndCode : Prop :=
  ∀ s : State,
    (s.regWord .status).toNat = 256 * s.status.lastOpcode.toNat + ruleCode s.status.code

/-- A host read of any register, at its offset of R51, answers the number that the register's fields give in the layout
of its rule, with every reserved bit 0, and changes nothing (R23, R25 to R34, R36, R37, R40, R54, R63). -/
def Obligations.RegisterWordsShowTheirFields : Prop :=
  ∀ (s : State) (off : Nat) (r : Reg) (rest : List Input), (off, r) ∈ registerMap →
    s.inputs = .readWord (BitVec.ofNat 18 off) :: rest →
    ∃ w : Word, w.toNat = ruleWord s r ∧ step s = .next { s with inputs := rest, replies := .word w :: s.replies }

/-- R29: FCS is the complement of CRC, in every state, with bits 31:16 zero, and a host write of FCS is ignored. -/
def Obligations.FcsIsTheComplementOfCrc : Prop :=
  ∀ (s : State) (w : Word),
    (∀ i, i < 16 → (s.regWord .fcs).getLsbD i = !(s.regWord .crc).getLsbD i) ∧
    (∀ i, 16 ≤ i → (s.regWord .fcs).getLsbD i = false) ∧
    s.setReg .fcs w = s ∧ State.reset.regWord .fcs = 0

/-! ## Reset -/

/-- R280, R38: what power-on reset leaves in every register the host can read, and that no buffer byte has a value of
its own. -/
def Obligations.ResetLeavesTheStatedValues : Prop :=
  State.reset.regWord .status = 0x00000000 ∧ State.reset.regWord .ilen = 0 ∧ State.reset.regWord .olen = 0 ∧
  State.reset.regWord .obits = 0 ∧ State.reset.regWord .crc = 0x0000FFFF ∧ State.reset.regWord .fcs = 0 ∧
  State.reset.regWord .din = 0 ∧ State.reset.regWord .dout = 0 ∧ State.reset.regWord .nrep = 0 ∧
  State.reset.regWord .hdr = 0 ∧ State.reset.regWord .hlen = 0 ∧
  (∀ k, State.reset.regWord (.arLo k) = 0x20202020 ∧ State.reset.regWord (.arHi k) = 0x06002020) ∧
  (∀ a, State.reset.byteAt a = Config.powerOnByte State.reset.powerCycle a)

/-- R230: SOFT_RESET returns every register to its reset value and leaves the buffers alone. -/
def Obligations.SoftResetRestoresEveryRegister : Prop :=
  decode 0x00000001 = .ok .softReset ∧
  ∀ s : State, ∃ t, exec .softReset s = .next t ∧
    t.status = { code := .ok, lastOpcode := 0x01 } ∧
    t.ilen = 0 ∧ t.olen = 0 ∧ t.obits = 0 ∧ t.crc = 0xFFFF ∧ t.din = 0 ∧ t.dout = 0 ∧ t.nrep = 0 ∧
    t.hdr = { cr := false, srcCr := false } ∧ t.hlen = 0 ∧
    (∀ k : Fin 10, (∀ j : Fin 6, (t.ar[k]).call[j] = 0x20) ∧ (t.ar[k]).clen = 0 ∧ (t.ar[k]).ssid = 0 ∧
      (t.ar[k]).ch = false ∧ (t.ar[k]).res5 = true ∧ (t.ar[k]).res6 = true ∧ (t.ar[k]).ext = false) ∧
    t.mem = s.mem ∧ t.cfg = s.cfg ∧ t.inputs = s.inputs ∧ t.replies = s.replies ∧ t.powerCycle = s.powerCycle

/-! ## Every command -/

/-- Every command answers a next state, records its opcode, and leaves alone what no command writes (R23, R25, R30,
R41, R82): ILEN and DIN but for SOFT_RESET, every byte of IBUF, and what is outside the block. -/
def Obligations.EveryCommandEndsAndRecordsItsOpcode : Prop :=
  ∀ (i : Instr) (s : State), ∃ t, exec i s = .next t ∧ (t.status.lastOpcode.setWidth 32, i) ∈ commandWords ∧
    (i ≠ .softReset → t.ilen = s.ilen ∧ t.din = s.din) ∧
    (∀ a, a < 0x20000 → t.byteAt a = s.byteAt a) ∧
    t.cfg = s.cfg ∧ t.inputs = s.inputs ∧ t.replies = s.replies ∧ t.powerCycle = s.powerCycle

/-- R252: a command that ends with an error writes STATUS and nothing else. -/
def Obligations.FailedCommandsWriteStatusOnly : Prop :=
  ∀ (i : Instr) (s t : State), exec i s = .next t → t.status.code ≠ .ok → t = { s with status := t.status }

/-- The codes each command can end with are those R250 lists for it. -/
def Obligations.CommandsRaiseOnlyTheirCodes : Prop :=
  ∀ (i : Instr) (s t : State), exec i s = .next t → t.status.code ∈ codesOf i

/-- The frame of the commands that store nothing (R42): the registers each may write, and nothing else. -/
def Obligations.RegisterCommandsFrame : Prop :=
  ∀ s t : State,
    ((exec .crcInit s = .next t ∨ exec .crcByte s = .next t ∨ exec .crcBuf s = .next t) →
      t = { s with crc := t.crc, status := t.status }) ∧
    (exec .fcsCheck s = .next t → t = { s with status := t.status }) ∧
    (exec .revByte s = .next t → t = { s with dout := t.dout, status := t.status }) ∧
    (exec .addrDecode s = .next t →
      t = { s with ar := t.ar, nrep := t.nrep, hdr := t.hdr, hlen := t.hlen, status := t.status })

/-- The frame of the commands that store to OBUF (R42, R286): the registers each may write, and every byte but
OBUF[0 .. OLEN-1] reads as before; all of memory does, when the command fails. -/
def Obligations.StoringCommandsFrame : Prop :=
  ∀ s t : State, s.cfg.wellFormed = true →
    (exec .revBuf s = .next t → t = { s with mem := t.mem, olen := t.olen, status := t.status }) ∧
    ((exec .hdlcEncode s = .next t ∨ exec .hdlcDecode s = .next t) →
      t = { s with mem := t.mem, olen := t.olen, obits := t.obits, status := t.status }) ∧
    (exec .addrEncode s = .next t →
      t = { s with mem := t.mem, olen := t.olen, hlen := t.hlen, status := t.status }) ∧
    ((exec .revBuf s = .next t ∨ exec .hdlcEncode s = .next t ∨ exec .hdlcDecode s = .next t ∨
        exec .addrEncode s = .next t) →
      OnlyObufBelow t.olen.toNat s t ∧ (t.status.code ≠ .ok → ∀ a, t.byteAt a = s.byteAt a))

/-- No command reads STATUS or OBUF (R24, R41): from two states that differ only there, a command gives the same
registers and writes the same bytes. -/
def Obligations.CommandsReadNeitherStatusNorObuf : Prop :=
  ∀ (i : Instr) (s s' t t' : State), s' = { s with status := s'.status, mem := s'.mem } →
    (∀ a, a < 0x20000 → s'.byteAt a = s.byteAt a) →
    exec i s = .next t → exec i s' = .next t' →
    t' = { t with mem := t'.mem } ∧
    ∀ a, t'.byteAt a = t.byteAt a ∨ (t'.byteAt a = s'.byteAt a ∧ t.byteAt a = s.byteAt a)

/-- The invariant: legal capacities, memory in canonical form over bytes that exist, OLEN and OBITS within what the
buffers hold, and HLEN a possible length. -/
def Obligations.StepKeepsTheInvariant : Prop :=
  ∀ s t : State, s.Inv → step s = .next t → t.Inv

/-- The invariant holds at reset. -/
def Obligations.ResetMeetsTheInvariant : Prop := State.reset.Inv

/-! ## The CRC -/

/-- R162: CRC_INIT sets CRC to 0xFFFF, after which FCS reads 0. -/
def Obligations.CrcInitStartsTheCrc : Prop :=
  decode 0x00000010 = .ok .crcInit ∧
  ∀ s : State, exec .crcInit s = .next { s with crc := 0xFFFF, status := { code := .ok, lastOpcode := 0x10 } } ∧
    ({ s with crc := 0xFFFF, status := { code := .ok, lastOpcode := 0x10 } } : State).regWord .fcs = 0

/-- R160, R163: CRC_BYTE folds DIN into CRC as the rule's loop does. -/
def Obligations.CrcByteFoldsDin : Prop :=
  decode 0x00000011 = .ok .crcByte ∧
  ∀ s : State, exec .crcByte s =
    .next { s with crc := ruleCrcStep s.crc s.din, status := { code := .ok, lastOpcode := 0x11 } }

/-- R164: CRC_BUF folds IBUF[0 .. ILEN-1] into the present CRC, or raises LengthOutOfRange and leaves CRC alone. -/
def Obligations.CrcBufFoldsTheBuffer : Prop :=
  decode 0x00000012 = .ok .crcBuf ∧
  ∀ (s : State) (d : List Byte), InputIs s d →
    (Readable s →
      exec .crcBuf s =
        .next { s with crc := d.foldl ruleCrcStep s.crc, status := { code := .ok, lastOpcode := 0x12 } }) ∧
    (¬ Readable s → Raises .crcBuf 0x12 .lengthOutOfRange s)

/-- CRC_BUF goes on from the present CRC (R164): two buffer loads give the CRC of the bytes of both. -/
def Obligations.CrcBufChainsOverLoads : Prop :=
  ∀ (s u whole t v x : State) (d e : List Byte),
    InputIs s d → Readable s → exec .crcBuf s = .next t →
    InputIs u e → Readable u → u.crc = t.crc → exec .crcBuf u = .next v →
    InputIs whole (d ++ e) → Readable whole → whole.crc = s.crc → exec .crcBuf whole = .next x →
    v.crc = x.crc

/-- CRC_INIT then CRC_BUF leaves the frame check sequence of the buffer in FCS (R161, R164). -/
def Obligations.CrcInitThenCrcBufLeavesFcs : Prop :=
  ∀ (s : State) (d : List Byte), InputIs s d → Readable s →
    ∃ t u, exec .crcInit s = .next t ∧ exec .crcBuf t = .next u ∧ u.fcs = ruleCrc16 d

/-- R165: FCS_CHECK reports, in this order, a length out of range, fewer than two bytes, and an FCS that is not the
big-endian FCS of the bytes before it; otherwise it passes. It writes STATUS only. -/
def Obligations.FcsCheckVerdict : Prop :=
  decode 0x00000013 = .ok .fcsCheck ∧
  ∀ s : State, (¬ Readable s → Raises .fcsCheck 0x13 .lengthOutOfRange s) ∧
    (Readable s → s.ilen.toNat < 2 → Raises .fcsCheck 0x13 .frameTooShort s) ∧
    (∀ (d : List Byte) (hi lo : Byte), InputIs s (d ++ [hi, lo]) → Readable s →
      (ruleCrc16 d ≠ bigEndian hi lo → Raises .fcsCheck 0x13 .fcsMismatch s) ∧
      (ruleCrc16 d = bigEndian hi lo →
        exec .fcsCheck s = .next { s with status := { code := .ok, lastOpcode := 0x13 } }))

/-- R166: a byte string followed by its FCS, high byte first, passes FCS_CHECK. -/
def Obligations.FcsGeneratorAndVerifierAgree : Prop :=
  ∀ (s : State) (d : List Byte), d.length + 2 ≤ s.cfg.ibufBytes →
    InputIs s (d ++ [BitVec.ofNat 8 ((ruleCrc16 d).toNat / 256), BitVec.ofNat 8 ((ruleCrc16 d).toNat % 256)]) →
    exec .fcsCheck s = .next { s with status := { code := .ok, lastOpcode := 0x13 } }

/-- R167: with exactly one bit of a byte string and its FCS flipped, FCS_CHECK reports FcsMismatch. -/
def Obligations.FcsCheckDetectsSingleBitErrors : Prop :=
  ∀ (s : State) (d e : List Byte) (p : Nat), d.length + 2 ≤ s.cfg.ibufBytes → p < 8 * (d.length + 2) →
    bitsMSB e = flipBit (bitsMSB
      (d ++ [BitVec.ofNat 8 ((ruleCrc16 d).toNat / 256), BitVec.ofNat 8 ((ruleCrc16 d).toNat % 256)])) p →
    InputIs s e → Raises .fcsCheck 0x13 .fcsMismatch s

/-- The CRC is linear: the difference of two results is the result of the differences (R160). -/
def Obligations.CrcStepIsLinear : Prop :=
  ∀ (c c' : BitVec 16) (b b' : Byte), crcStep (c ^^^ c') (b ^^^ b') = crcStep c b ^^^ crcStep c' b'

/-! ## Bit reversal -/

/-- R140, R141: REV_BYTE writes to DOUT the byte whose bit i is bit 7 - i of DIN, and changes no other register. -/
def Obligations.RevByteReversesDin : Prop :=
  decode 0x00000020 = .ok .revByte ∧
  ∀ s : State, ∃ b : Byte, (∀ i, i < 8 → b.getLsbD i = s.din.getLsbD (7 - i)) ∧
    exec .revByte s = .next { s with dout := b, status := { code := .ok, lastOpcode := 0x20 } }

/-- R142: REV_BUF reverses the bits of every input byte into OBUF and counts them in OLEN, or raises LengthOutOfRange
or OutputOverflow, in that order. -/
def Obligations.RevBufReversesTheBuffer : Prop :=
  decode 0x00000021 = .ok .revBuf ∧
  ∀ s : State, (¬ Readable s → Raises .revBuf 0x21 .lengthOutOfRange s) ∧
    (Readable s → s.cfg.obufBytes < s.ilen.toNat → Raises .revBuf 0x21 .outputOverflow s) ∧
    (Readable s → s.ilen.toNat ≤ s.cfg.obufBytes →
      ∃ t, exec .revBuf s = .next t ∧
        t = { s with mem := t.mem, olen := s.ilen, status := { code := .ok, lastOpcode := 0x21 } } ∧
        (∀ j i, j < s.ilen.toNat → i < 8 → (t.obuf j).getLsbD i = (s.ibuf j).getLsbD (7 - i)) ∧
        OnlyObufBelow s.ilen.toNat s t)

/-- R143: reversal is its own inverse on every byte, and REV_BUF applied to its own output, copied to IBUF, gives back
the original bytes. -/
def Obligations.RevBufUndoesItself : Prop :=
  (∀ b : Byte, rev8 (rev8 b) = b) ∧
  ∀ s t u : State, Readable s → s.ilen.toNat ≤ s.cfg.obufBytes → exec .revBuf s = .next t →
    u.cfg = t.cfg → u.ilen.toNat = t.olen.toNat → (∀ j, j < t.olen.toNat → u.ibuf j = t.obuf j) →
    ∃ v, exec .revBuf u = .next v ∧ v.status.code = .ok ∧ v.olen = s.ilen ∧
      ∀ j, j < s.ilen.toNat → v.obuf j = s.ibuf j

/-! ## HDLC framing -/

/-- R190, R191: where each bit of a byte string stands in `bitsMSB`, where each bit of a sequence stands in `packMSB`,
and that packing undoes serializing. -/
def Obligations.SerializingAndPackingBits : Prop :=
  (∀ d : List Byte, (bitsMSB d).length = 8 * d.length) ∧
  (∀ (d : List Byte) (i j : Nat), i < d.length → j < 8 →
    (bitsMSB d).getD (8 * i + j) false = (d.getD i 0).getLsbD (7 - j)) ∧
  (∀ s : Bits, (packMSB s).length = (s.length + 7) / 8) ∧
  (∀ (s : Bits) (i j : Nat), i < (s.length + 7) / 8 → j < 8 →
    ((packMSB s).getD i 0).getLsbD (7 - j) = if 8 * i + j < s.length then s.getD (8 * i + j) false else false) ∧
  (∀ d : List Byte, packMSB (bitsMSB d) = d)

/-- R192: the stuffing engine is the rule's loop, its output never holds six 1-bits in a row, and it adds at most one
bit in five. -/
def Obligations.StuffingFollowsItsRule : Prop :=
  ∀ s : Bits, stuff s = ruleStuff s ∧
    (∀ p, ((stuff s).drop p).take 6 ≠ List.replicate 6 true) ∧
    s.length ≤ (stuff s).length ∧ (stuff s).length ≤ s.length + s.length / 5

/-- R193: the destuffing engine is the rule's loop. -/
def Obligations.DestuffScanFollowsItsRule : Prop :=
  ∀ (raw : Bits) (p : Nat), destuffScan raw p = ruleScan raw (raw.length + 1) p 0 []

/-- Destuffing undoes stuffing (R192, R193): after `p` bits, a stuffed body and a flag close at the body's end,
whatever follows. -/
def Obligations.DestuffingUndoesStuffing : Prop :=
  ∀ (before body after : Bits),
    destuffScan (before ++ stuff body ++ flagBits ++ after) before.length =
      .close body (before.length + (stuff body).length)

/-- R202: in the line that HDLC_ENCODE leaves in OBUF, no six 1-bits in a row stand between the two flags, and the
first flag at or after position 8 is the closing one, at L - 8. -/
def Obligations.ClosingFlagIsTheFirstAfterTheOpening : Prop :=
  ∀ s t : State, exec .hdlcEncode s = .next t → t.status.code = .ok →
    let line := obufLine t
    line.length = t.obits.toNat ∧ 16 ≤ line.length ∧ FlagAt line 0 ∧
    (∀ p, 8 ≤ p → p + 6 ≤ line.length - 8 → (line.drop p).take 6 ≠ List.replicate 6 true) ∧
    FlagAt line (line.length - 8) ∧ (∀ p, 8 ≤ p → FlagAt line p → line.length - 8 ≤ p)

/-- R200: HDLC_ENCODE writes the frame of IBUF[0 .. ILEN-1], packed, with its sizes in OLEN and OBITS, or raises
LengthOutOfRange or OutputOverflow, in that order. -/
def Obligations.HdlcEncodeWritesTheFrame : Prop :=
  decode 0x00000030 = .ok .hdlcEncode ∧
  ∀ (s : State) (d : List Byte), InputIs s d →
    let line := ruleLine d
    let n := (line.length + 7) / 8
    (¬ Readable s → Raises .hdlcEncode 0x30 .lengthOutOfRange s) ∧
    (Readable s → s.cfg.obufBytes < n → Raises .hdlcEncode 0x30 .outputOverflow s) ∧
    (Readable s → n ≤ s.cfg.obufBytes →
      ∃ t, exec .hdlcEncode s = .next t ∧
        t = { s with
              mem := t.mem
              olen := BitVec.ofNat 16 n
              obits := BitVec.ofNat 32 line.length
              status := { code := .ok, lastOpcode := 0x30 } } ∧
        (∀ i j, i < n → j < 8 →
          (t.obuf i).getLsbD (7 - j) = if 8 * i + j < line.length then line.getD (8 * i + j) false else false) ∧
        OnlyObufBelow n s t)

/-- R201: the size of an encoded frame, and a capacity that always holds it. -/
def Obligations.EncodedFrameSizeBounds : Prop :=
  ∀ s t : State, s.cfg.wellFormed = true → exec .hdlcEncode s = .next t →
    let n := s.ilen.toNat
    (t.status.code = .ok →
      32 + 8 * n ≤ t.obits.toNat ∧ t.obits.toNat ≤ 16 + 8 * (n + 2) + 8 * (n + 2) / 5 ∧
      t.olen.toNat = (t.obits.toNat + 7) / 8) ∧
    ((16 + 8 * (n + 2) + 8 * (n + 2) / 5 + 7) / 8 ≤ s.cfg.obufBytes → t.status.code ≠ .outputOverflow)

/-- R203: HDLC_DECODE's checks in order, and what it writes when all of them pass. -/
def Obligations.HdlcDecodeChecksAndWrites : Prop :=
  decode 0x00000031 = .ok .hdlcDecode ∧
  ∀ (s : State) (d : List Byte), InputIs s d →
    let raw := bitsMSB d
    (¬ Readable s → Raises .hdlcDecode 0x31 .lengthOutOfRange s) ∧
    (Readable s → (∀ p, ¬ FlagAt raw p) → Raises .hdlcDecode 0x31 .noOpeningFlag s) ∧
    (∀ i, Readable s → FirstFlag raw i →
      (∀ q, ruleScan raw (raw.length + 1) (i + 8) 0 [] = .violation q →
        Raises .hdlcDecode 0x31 .bitStuffingViolation s) ∧
      (ruleScan raw (raw.length + 1) (i + 8) 0 [] = .noClose → Raises .hdlcDecode 0x31 .noClosingFlag s) ∧
      (∀ body k, ruleScan raw (raw.length + 1) (i + 8) 0 [] = .close body k →
        (body.length % 8 ≠ 0 → Raises .hdlcDecode 0x31 .nonOctetFrame s) ∧
        (body.length % 8 = 0 → body.length < 16 → Raises .hdlcDecode 0x31 .frameTooShort s) ∧
        (∀ (p : List Byte) (hi lo : Byte), body = bitsMSB (p ++ [hi, lo]) →
          (ruleCrc16 p ≠ bigEndian hi lo → Raises .hdlcDecode 0x31 .fcsMismatch s) ∧
          (ruleCrc16 p = bigEndian hi lo → s.cfg.obufBytes < p.length →
            Raises .hdlcDecode 0x31 .outputOverflow s) ∧
          (ruleCrc16 p = bigEndian hi lo → p.length ≤ s.cfg.obufBytes →
            ∃ t, exec .hdlcDecode s = .next t ∧
              t = { s with
                    mem := t.mem
                    olen := BitVec.ofNat 16 p.length
                    obits := BitVec.ofNat 32 (k + 8)
                    status := { code := .ok, lastOpcode := 0x31 } } ∧
              (∀ j i, j < p.length → i < 8 → (t.obuf j).getLsbD i = (p.getD j 0).getLsbD (7 - i)) ∧
              OnlyObufBelow p.length s t))))

/-- The round trip of the framer (R204): what HDLC_ENCODE wrote, copied to IBUF where it fits there, decodes to the
payload, with the same OBITS. That the copy fits in IBUF is a premise: the rule speaks of the copy and does not say
what a frame longer than IBUF does (log entry 15). -/
def Obligations.DecodeUndoesEncode : Prop :=
  ∀ (s t u : State) (d : List Byte), s.cfg.wellFormed = true → InputIs s d → Readable s →
    exec .hdlcEncode s = .next t → t.status.code = .ok →
    u.cfg = s.cfg → u.ilen = t.olen → (∀ j, j < t.olen.toNat → u.ibuf j = t.obuf j) → Readable u →
    ∃ v, exec .hdlcDecode u = .next v ∧ v.status = { code := .ok, lastOpcode := 0x31 } ∧
      v.olen.toNat = d.length ∧ v.obits = t.obits ∧ (∀ j, j < d.length → v.obuf j = d.getD j 0)

/-- A single flipped bit in the destuffed body of a frame, with the frame boundaries unchanged, is always reported as
FcsMismatch (R206 form (a)). -/
def Obligations.BodyBitErrorsAreFcsMismatches : Prop :=
  ∀ (s : State) (d : List Byte) (p : Nat), p < 8 * (d.length + 2) → Readable s →
    InputIs s (packMSB (flagBits ++ stuff (flipBit (bitsMSB (ruleBody d)) p) ++ flagBits)) →
    Raises .hdlcDecode 0x31 .fcsMismatch s

/-! ## The address field -/

/-- R100, R101, R103, R110: ADDR_ENCODE's checks in order, and every byte it writes. -/
def Obligations.AddrEncodeWritesTheField : Prop :=
  decode 0x00000040 = .ok .addrEncode ∧
  ∀ s : State, s.cfg.wellFormed = true →
    let r := s.nrep.toNat
    (8 < r → Raises .addrEncode 0x40 .tooManyRepeaters s) ∧
    (∀ k : Fin 10, r ≤ 8 → k.val ≤ 1 + r → (s.ar[k]).clen = 7 →
      Raises .addrEncode 0x40 .invalidCallsignLength s) ∧
    (r ≤ 8 → (∀ k : Fin 10, k.val ≤ 1 + r → (s.ar[k]).clen ≠ 7) →
      ∃ t, exec .addrEncode s = .next t ∧
        t = { s with
              mem := t.mem
              olen := BitVec.ofNat 16 (14 + 7 * r)
              hlen := BitVec.ofNat 8 (14 + 7 * r)
              status := { code := .ok, lastOpcode := 0x40 } } ∧
        (∀ k : Fin 10, k.val ≤ 1 + r →
          (∀ i : Fin 6, (t.obuf (7 * k.val + i.val)).toNat =
            if i.val < (s.ar[k]).clen.toNat then (2 * ((s.ar[k]).call[i]).toNat) % 256 else 0x40) ∧
          (t.obuf (7 * k.val + 6)).getLsbD 7 = (s.ar[k]).ch ∧
          (t.obuf (7 * k.val + 6)).getLsbD 6 = (s.ar[k]).res6 ∧
          (t.obuf (7 * k.val + 6)).getLsbD 5 = (s.ar[k]).res5 ∧
          (∀ j, j < 4 → (t.obuf (7 * k.val + 6)).getLsbD (j + 1) = (s.ar[k]).ssid.getLsbD j) ∧
          ((t.obuf (7 * k.val + 6)).getLsbD 0 = true ↔ k.val = 1 + r)) ∧
        OnlyObufBelow (14 + 7 * r) s t)

/-- R112: in every field ADDR_ENCODE writes, exactly one group has its extension bit set, the last. -/
def Obligations.ExtensionBitMarksTheLastGroup : Prop :=
  ∀ s t : State, exec .addrEncode s = .next t → t.status.code = .ok →
    ∀ k, k ≤ 1 + s.nrep.toNat → ((t.obuf (7 * k + 6)).getLsbD 0 = true ↔ k = 1 + s.nrep.toNat)

/-- R102: what a 7-byte group decodes to. CLEN is the least length past which every character is a space. -/
def Obligations.GroupDecodesByItsRule : Prop :=
  ∀ g : Vector Byte 7,
    let a := decodeAddress g
    (∀ i : Fin 6, (a.call[i]).toNat = (g[i.val]).toNat / 2) ∧
    a.clen.toNat ≤ 6 ∧
    (∀ i : Fin 6, a.clen.toNat ≤ i.val → a.call[i] = 0x20) ∧
    (∀ i : Fin 6, i.val + 1 = a.clen.toNat → a.call[i] ≠ 0x20) ∧
    (∀ j, j < 4 → a.ssid.getLsbD j = (g[6]).getLsbD (j + 1)) ∧
    a.ch = (g[6]).getLsbD 7 ∧ a.res5 = (g[6]).getLsbD 5 ∧ a.res6 = (g[6]).getLsbD 6 ∧ a.ext = (g[6]).getLsbD 0

/-- R120: ADDR_DECODE's checks as the group walk meets them, and what it writes when the walk finds `r` repeaters. -/
def Obligations.AddrDecodeWalksTheGroups : Prop :=
  decode 0x00000041 = .ok .addrDecode ∧
  ∀ s : State,
    let n := s.ilen.toNat
    (¬ Readable s → Raises .addrDecode 0x41 .lengthOutOfRange s) ∧
    (Readable s → n < 14 → Raises .addrDecode 0x41 .truncatedAddressField s) ∧
    (∀ r, Readable s → r ≤ 7 → 14 + 7 * r ≤ n → n < 14 + 7 * (r + 1) →
      (∀ k, 1 ≤ k → k ≤ 1 + r → groupExt s k = false) → Raises .addrDecode 0x41 .truncatedAddressField s) ∧
    (Readable s → 70 ≤ n → (∀ k, 1 ≤ k → k ≤ 9 → groupExt s k = false) →
      Raises .addrDecode 0x41 .tooManyRepeaters s) ∧
    (∀ r, Readable s → r ≤ 8 → 14 + 7 * r ≤ n → (∀ k, 1 ≤ k → k ≤ r → groupExt s k = false) →
      groupExt s (1 + r) = true →
      ∃ t, exec .addrDecode s = .next t ∧
        t = { s with
              ar := t.ar
              nrep := BitVec.ofNat 4 r
              hdr := { cr := (s.ibuf 6).getLsbD 7, srcCr := (s.ibuf 13).getLsbD 7 }
              hlen := BitVec.ofNat 8 (14 + 7 * r)
              status := { code := .ok, lastOpcode := 0x41 } } ∧
        ∀ k : Fin 10, t.ar[k] = if k.val ≤ 1 + r then decodeAddress (inputGroup s k.val) else s.ar[k])

/-- R121: decoding the field that valid slots encode to gives back every field but EXT, which marks the last group. -/
def Obligations.AddressFieldRoundTrip : Prop :=
  ∀ s t u : State, s.cfg.wellFormed = true → s.nrep.toNat ≤ 8 →
    (∀ k : Fin 10, k.val ≤ 1 + s.nrep.toNat → ValidSlot s.ar[k]) →
    exec .addrEncode s = .next t → u.cfg = s.cfg → u.ilen.toNat = 14 + 7 * s.nrep.toNat →
    (∀ j, j < 14 + 7 * s.nrep.toNat → u.ibuf j = t.obuf j) →
    ∃ v, exec .addrDecode u = .next v ∧ v.status = { code := .ok, lastOpcode := 0x41 } ∧ v.nrep = s.nrep ∧
      v.hdr = { cr := (s.ar[0]).ch, srcCr := (s.ar[1]).ch } ∧
      ∀ k : Fin 10, k.val ≤ 1 + s.nrep.toNat →
        v.ar[k] = { s.ar[k] with ext := decide (k.val = 1 + s.nrep.toNat) }
end

