-- ==== Sys2Proof/Laws/State.lean ====
section
/-! SUPPORT. What each named update of the state leaves in each field: one lemma per field and update, true by rfl. -/

namespace Sys2Proof.Machine

@[simp] theorem complete_status (op : BitVec 8) (s : State) :
    (complete op s).status = { code := .ok, lastOpcode := op } := rfl
@[simp] theorem complete_ilen (op : BitVec 8) (s : State) :
    (complete op s).ilen = s.ilen := rfl
@[simp] theorem complete_olen (op : BitVec 8) (s : State) :
    (complete op s).olen = s.olen := rfl
@[simp] theorem complete_obits (op : BitVec 8) (s : State) :
    (complete op s).obits = s.obits := rfl
@[simp] theorem complete_crc (op : BitVec 8) (s : State) :
    (complete op s).crc = s.crc := rfl
@[simp] theorem complete_din (op : BitVec 8) (s : State) :
    (complete op s).din = s.din := rfl
@[simp] theorem complete_dout (op : BitVec 8) (s : State) :
    (complete op s).dout = s.dout := rfl
@[simp] theorem complete_nrep (op : BitVec 8) (s : State) :
    (complete op s).nrep = s.nrep := rfl
@[simp] theorem complete_hdr (op : BitVec 8) (s : State) :
    (complete op s).hdr = s.hdr := rfl
@[simp] theorem complete_hlen (op : BitVec 8) (s : State) :
    (complete op s).hlen = s.hlen := rfl
@[simp] theorem complete_ar (op : BitVec 8) (s : State) :
    (complete op s).ar = s.ar := rfl
@[simp] theorem complete_mem (op : BitVec 8) (s : State) :
    (complete op s).mem = s.mem := rfl
@[simp] theorem complete_cfg (op : BitVec 8) (s : State) :
    (complete op s).cfg = s.cfg := rfl
@[simp] theorem complete_inputs (op : BitVec 8) (s : State) :
    (complete op s).inputs = s.inputs := rfl
@[simp] theorem complete_replies (op : BitVec 8) (s : State) :
    (complete op s).replies = s.replies := rfl
@[simp] theorem complete_powerCycle (op : BitVec 8) (s : State) :
    (complete op s).powerCycle = s.powerCycle := rfl

@[simp] theorem raiseStatus_status (op : BitVec 8) (c : StatusCode) (s : State) :
    (raiseStatus op c s).status = { code := c, lastOpcode := op } := rfl
@[simp] theorem raiseStatus_ilen (op : BitVec 8) (c : StatusCode) (s : State) :
    (raiseStatus op c s).ilen = s.ilen := rfl
@[simp] theorem raiseStatus_olen (op : BitVec 8) (c : StatusCode) (s : State) :
    (raiseStatus op c s).olen = s.olen := rfl
@[simp] theorem raiseStatus_obits (op : BitVec 8) (c : StatusCode) (s : State) :
    (raiseStatus op c s).obits = s.obits := rfl
@[simp] theorem raiseStatus_crc (op : BitVec 8) (c : StatusCode) (s : State) :
    (raiseStatus op c s).crc = s.crc := rfl
@[simp] theorem raiseStatus_din (op : BitVec 8) (c : StatusCode) (s : State) :
    (raiseStatus op c s).din = s.din := rfl
@[simp] theorem raiseStatus_dout (op : BitVec 8) (c : StatusCode) (s : State) :
    (raiseStatus op c s).dout = s.dout := rfl
@[simp] theorem raiseStatus_nrep (op : BitVec 8) (c : StatusCode) (s : State) :
    (raiseStatus op c s).nrep = s.nrep := rfl
@[simp] theorem raiseStatus_hdr (op : BitVec 8) (c : StatusCode) (s : State) :
    (raiseStatus op c s).hdr = s.hdr := rfl
@[simp] theorem raiseStatus_hlen (op : BitVec 8) (c : StatusCode) (s : State) :
    (raiseStatus op c s).hlen = s.hlen := rfl
@[simp] theorem raiseStatus_ar (op : BitVec 8) (c : StatusCode) (s : State) :
    (raiseStatus op c s).ar = s.ar := rfl
@[simp] theorem raiseStatus_mem (op : BitVec 8) (c : StatusCode) (s : State) :
    (raiseStatus op c s).mem = s.mem := rfl
@[simp] theorem raiseStatus_cfg (op : BitVec 8) (c : StatusCode) (s : State) :
    (raiseStatus op c s).cfg = s.cfg := rfl
@[simp] theorem raiseStatus_inputs (op : BitVec 8) (c : StatusCode) (s : State) :
    (raiseStatus op c s).inputs = s.inputs := rfl
@[simp] theorem raiseStatus_replies (op : BitVec 8) (c : StatusCode) (s : State) :
    (raiseStatus op c s).replies = s.replies := rfl
@[simp] theorem raiseStatus_powerCycle (op : BitVec 8) (c : StatusCode) (s : State) :
    (raiseStatus op c s).powerCycle = s.powerCycle := rfl

@[simp] theorem storeObuf_status (bs : List Byte) (s : State) :
    (storeObuf bs s).status = s.status := rfl
@[simp] theorem storeObuf_ilen (bs : List Byte) (s : State) :
    (storeObuf bs s).ilen = s.ilen := rfl
@[simp] theorem storeObuf_olen (bs : List Byte) (s : State) :
    (storeObuf bs s).olen = s.olen := rfl
@[simp] theorem storeObuf_obits (bs : List Byte) (s : State) :
    (storeObuf bs s).obits = s.obits := rfl
@[simp] theorem storeObuf_crc (bs : List Byte) (s : State) :
    (storeObuf bs s).crc = s.crc := rfl
@[simp] theorem storeObuf_din (bs : List Byte) (s : State) :
    (storeObuf bs s).din = s.din := rfl
@[simp] theorem storeObuf_dout (bs : List Byte) (s : State) :
    (storeObuf bs s).dout = s.dout := rfl
@[simp] theorem storeObuf_nrep (bs : List Byte) (s : State) :
    (storeObuf bs s).nrep = s.nrep := rfl
@[simp] theorem storeObuf_hdr (bs : List Byte) (s : State) :
    (storeObuf bs s).hdr = s.hdr := rfl
@[simp] theorem storeObuf_hlen (bs : List Byte) (s : State) :
    (storeObuf bs s).hlen = s.hlen := rfl
@[simp] theorem storeObuf_ar (bs : List Byte) (s : State) :
    (storeObuf bs s).ar = s.ar := rfl
@[simp] theorem storeObuf_mem (bs : List Byte) (s : State) :
    (storeObuf bs s).mem = Memory.writeBytes s.mem obufBase bs := rfl
@[simp] theorem storeObuf_cfg (bs : List Byte) (s : State) :
    (storeObuf bs s).cfg = s.cfg := rfl
@[simp] theorem storeObuf_inputs (bs : List Byte) (s : State) :
    (storeObuf bs s).inputs = s.inputs := rfl
@[simp] theorem storeObuf_replies (bs : List Byte) (s : State) :
    (storeObuf bs s).replies = s.replies := rfl
@[simp] theorem storeObuf_powerCycle (bs : List Byte) (s : State) :
    (storeObuf bs s).powerCycle = s.powerCycle := rfl

@[simp] theorem resetRegisters_status (s : State) :
    (resetRegisters s).status = s.status := rfl
@[simp] theorem resetRegisters_ilen (s : State) :
    (resetRegisters s).ilen = 0 := rfl
@[simp] theorem resetRegisters_olen (s : State) :
    (resetRegisters s).olen = 0 := rfl
@[simp] theorem resetRegisters_obits (s : State) :
    (resetRegisters s).obits = 0 := rfl
@[simp] theorem resetRegisters_crc (s : State) :
    (resetRegisters s).crc = 0xFFFF := rfl
@[simp] theorem resetRegisters_din (s : State) :
    (resetRegisters s).din = 0 := rfl
@[simp] theorem resetRegisters_dout (s : State) :
    (resetRegisters s).dout = 0 := rfl
@[simp] theorem resetRegisters_nrep (s : State) :
    (resetRegisters s).nrep = 0 := rfl
@[simp] theorem resetRegisters_hdr (s : State) :
    (resetRegisters s).hdr = { cr := false, srcCr := false } := rfl
@[simp] theorem resetRegisters_hlen (s : State) :
    (resetRegisters s).hlen = 0 := rfl
@[simp] theorem resetRegisters_ar (s : State) :
    (resetRegisters s).ar = Vector.replicate 10 AddrSlot.reset := rfl
@[simp] theorem resetRegisters_mem (s : State) :
    (resetRegisters s).mem = s.mem := rfl
@[simp] theorem resetRegisters_cfg (s : State) :
    (resetRegisters s).cfg = s.cfg := rfl
@[simp] theorem resetRegisters_inputs (s : State) :
    (resetRegisters s).inputs = s.inputs := rfl
@[simp] theorem resetRegisters_replies (s : State) :
    (resetRegisters s).replies = s.replies := rfl
@[simp] theorem resetRegisters_powerCycle (s : State) :
    (resetRegisters s).powerCycle = s.powerCycle := rfl

@[simp] theorem reply_status (s : State) (r : Reply) :
    (s.reply r).status = s.status := rfl
@[simp] theorem reply_ilen (s : State) (r : Reply) :
    (s.reply r).ilen = s.ilen := rfl
@[simp] theorem reply_olen (s : State) (r : Reply) :
    (s.reply r).olen = s.olen := rfl
@[simp] theorem reply_obits (s : State) (r : Reply) :
    (s.reply r).obits = s.obits := rfl
@[simp] theorem reply_crc (s : State) (r : Reply) :
    (s.reply r).crc = s.crc := rfl
@[simp] theorem reply_din (s : State) (r : Reply) :
    (s.reply r).din = s.din := rfl
@[simp] theorem reply_dout (s : State) (r : Reply) :
    (s.reply r).dout = s.dout := rfl
@[simp] theorem reply_nrep (s : State) (r : Reply) :
    (s.reply r).nrep = s.nrep := rfl
@[simp] theorem reply_hdr (s : State) (r : Reply) :
    (s.reply r).hdr = s.hdr := rfl
@[simp] theorem reply_hlen (s : State) (r : Reply) :
    (s.reply r).hlen = s.hlen := rfl
@[simp] theorem reply_ar (s : State) (r : Reply) :
    (s.reply r).ar = s.ar := rfl
@[simp] theorem reply_mem (s : State) (r : Reply) :
    (s.reply r).mem = s.mem := rfl
@[simp] theorem reply_cfg (s : State) (r : Reply) :
    (s.reply r).cfg = s.cfg := rfl
@[simp] theorem reply_inputs (s : State) (r : Reply) :
    (s.reply r).inputs = s.inputs := rfl
@[simp] theorem reply_replies (s : State) (r : Reply) :
    (s.reply r).replies = r :: s.replies := rfl
@[simp] theorem reply_powerCycle (s : State) (r : Reply) :
    (s.reply r).powerCycle = s.powerCycle := rfl

@[simp] theorem powerOnReset_status (s : State) :
    (powerOnReset s).status = { code := .ok, lastOpcode := 0x00 } := rfl
@[simp] theorem powerOnReset_ilen (s : State) :
    (powerOnReset s).ilen = 0 := rfl
@[simp] theorem powerOnReset_olen (s : State) :
    (powerOnReset s).olen = 0 := rfl
@[simp] theorem powerOnReset_obits (s : State) :
    (powerOnReset s).obits = 0 := rfl
@[simp] theorem powerOnReset_crc (s : State) :
    (powerOnReset s).crc = 0xFFFF := rfl
@[simp] theorem powerOnReset_din (s : State) :
    (powerOnReset s).din = 0 := rfl
@[simp] theorem powerOnReset_dout (s : State) :
    (powerOnReset s).dout = 0 := rfl
@[simp] theorem powerOnReset_nrep (s : State) :
    (powerOnReset s).nrep = 0 := rfl
@[simp] theorem powerOnReset_hdr (s : State) :
    (powerOnReset s).hdr = { cr := false, srcCr := false } := rfl
@[simp] theorem powerOnReset_hlen (s : State) :
    (powerOnReset s).hlen = 0 := rfl
@[simp] theorem powerOnReset_ar (s : State) :
    (powerOnReset s).ar = Vector.replicate 10 AddrSlot.reset := rfl
@[simp] theorem powerOnReset_mem (s : State) :
    (powerOnReset s).mem = [] := rfl
@[simp] theorem powerOnReset_cfg (s : State) :
    (powerOnReset s).cfg = s.cfg := rfl
@[simp] theorem powerOnReset_inputs (s : State) :
    (powerOnReset s).inputs = s.inputs := rfl
@[simp] theorem powerOnReset_replies (s : State) :
    (powerOnReset s).replies = s.replies := rfl
@[simp] theorem powerOnReset_powerCycle (s : State) :
    (powerOnReset s).powerCycle = s.powerCycle + 1 := rfl

@[simp] theorem complete_byteAt (op : BitVec 8) (s : State) (a : Nat) :
    (complete op s).byteAt a = s.byteAt a := rfl
@[simp] theorem raiseStatus_byteAt (op : BitVec 8) (c : StatusCode) (s : State) (a : Nat) :
    (raiseStatus op c s).byteAt a = s.byteAt a := rfl
@[simp] theorem resetRegisters_byteAt (s : State) (a : Nat) :
    (resetRegisters s).byteAt a = s.byteAt a := rfl
@[simp] theorem reply_byteAt (s : State) (r : Reply) (a : Nat) :
    (s.reply r).byteAt a = s.byteAt a := rfl

/-- A register write touches none of the fields that are no register. -/
theorem setReg_frame (s : State) (r : Reg) (w : Word) :
    (s.setReg r w).status = s.status ∧ (s.setReg r w).olen = s.olen ∧ (s.setReg r w).obits = s.obits ∧
    (s.setReg r w).dout = s.dout ∧ (s.setReg r w).hdr = s.hdr ∧ (s.setReg r w).hlen = s.hlen ∧
    (s.setReg r w).mem = s.mem ∧ (s.setReg r w).cfg = s.cfg ∧ (s.setReg r w).inputs = s.inputs ∧
    (s.setReg r w).replies = s.replies ∧ (s.setReg r w).powerCycle = s.powerCycle := by
  cases r <;> simp [State.setReg]

/-- A word write is a register write or nothing. -/
theorem writeWord_cases (s : State) (a : Addr) (w : Word) :
    (∃ r, regAt a.toNat = some r ∧ s.writeWord a w = s.setReg r w) ∨
    (regAt a.toNat = none ∧ s.writeWord a w = s) := by
  cases h : regAt a.toNat with
  | some r => exact .inl ⟨r, rfl, by simp [State.writeWord, h]⟩
  | none => exact .inr ⟨rfl, by simp [State.writeWord, h]⟩

/-- The buffer bytes that exist, by address (R50, R56). -/
theorem isBufferByte_iff (c : Config) (a : Nat) :
    c.isBufferByte a = true ↔
      (0x10000 ≤ a ∧ a < 0x10000 + c.ibufBytes) ∨ (0x20000 ≤ a ∧ a < 0x20000 + c.obufBytes) := by
  simp [Config.isBufferByte, Config.isIbufByte, Config.isObufByte]

/-- Legal capacities (R6). -/
theorem config_wellFormed_iff (c : Config) :
    c.wellFormed = true ↔
      70 ≤ c.ibufBytes ∧ c.ibufBytes ≤ 65535 ∧ 70 ≤ c.obufBytes ∧ c.obufBytes ≤ 65535 := by
  simp [Config.wellFormed, and_assoc]

end Sys2Proof.Machine
end

