-- ==== Sys2Proof/Laws/Memory.lean ====
section
/-! SUPPORT. The laws of memory: read after write, a write leaves other places alone, every write keeps the canonical
form, and canonical memories with the same contents are the same list. -/

namespace Sys2Proof.Machine

open Sys2Proof

/-- Reading after writing one byte. -/
@[simp] theorem Memory.cellAt_write (m : Memory) (a x : Nat) (v : Byte) :
    Memory.cellAt (Memory.write m a v) x = if x = a then some v else Memory.cellAt m x := by
  induction m with
  | nil => simp [Memory.write, Memory.cellAt]
  | cons c m ih =>
    obtain ⟨b, w⟩ := c
    simp only [Memory.write]
    split
    · simp [Memory.cellAt]
    · split
      · subst b
        simp only [Memory.cellAt]
        split <;> rfl
      · simp only [Memory.cellAt, ih]
        split
        · rw [if_neg (by omega)]
        · rfl

/-- Reading after writing a byte string. -/
theorem Memory.cellAt_writeBytes (m : Memory) (a x : Nat) (vs : List Byte) :
    Memory.cellAt (Memory.writeBytes m a vs) x =
      if a ≤ x ∧ x < a + vs.length then vs[x - a]? else Memory.cellAt m x := by
  induction vs generalizing m a with
  | nil => rw [Memory.writeBytes, if_neg (by simp)]
  | cons v vs ih =>
    rw [Memory.writeBytes, ih, Memory.cellAt_write]
    by_cases hx : x = a
    · subst x; simp
    · by_cases h : a + 1 ≤ x ∧ x < a + 1 + vs.length
      · have h' : a ≤ x ∧ x < a + (v :: vs).length := by simp; omega
        rw [if_pos h, if_pos h', show x - a = (x - (a + 1)) + 1 by omega, List.getElem?_cons_succ]
      · have h' : ¬ (a ≤ x ∧ x < a + (v :: vs).length) := by simp; omega
        rw [if_neg h, if_neg h', if_neg hx]

/-- Every address that a write lists was listed before or is the one written. -/
theorem Memory.mem_write {m : Memory} {a : Nat} {v : Byte} {x : Host.Cell} (h : x ∈ Memory.write m a v) :
    x = (a, v) ∨ x ∈ m := by
  induction m with
  | nil => simpa [Memory.write] using h
  | cons c m ih =>
    obtain ⟨b, w⟩ := c
    simp only [Memory.write] at h
    split at h
    · simpa using h
    · split at h
      · simp only [List.mem_cons] at h ⊢; tauto
      · simp only [List.mem_cons] at h ⊢
        rcases h with h | h
        · tauto
        · have := ih h; tauto

/-- One write keeps the canonical form. -/
theorem Memory.wf_write {m : Memory} (h : Memory.wf m) (a : Nat) (v : Byte) : Memory.wf (Memory.write m a v) := by
  induction m with
  | nil => simp [Memory.write]
  | cons c m ih =>
    obtain ⟨b, w⟩ := c
    obtain ⟨hb, hm⟩ := List.pairwise_cons.mp h
    simp only [Memory.write]
    split
    · rename_i hab
      refine List.pairwise_cons.mpr ⟨fun x hx => ?_, h⟩
      rcases List.mem_cons.mp hx with rfl | hx
      · exact hab
      · exact lt_trans hab (hb x hx)
    · split
      · subst a
        exact List.pairwise_cons.mpr ⟨hb, hm⟩
      · refine List.pairwise_cons.mpr ⟨fun x hx => ?_, ih hm⟩
        rcases Memory.mem_write hx with rfl | hx
        · simp; omega
        · exact hb x hx

/-- Writing a byte string keeps the canonical form. -/
theorem Memory.wf_writeBytes {m : Memory} (h : Memory.wf m) (a : Nat) (vs : List Byte) :
    Memory.wf (Memory.writeBytes m a vs) := by
  induction vs generalizing m a with
  | nil => exact h
  | cons v vs ih => exact ih (Memory.wf_write h a v) (a + 1)

/-- One write to a buffer byte that exists keeps the memory inside the buffers. -/
theorem Memory.within_write {c : Config} {m : Memory} (h : Memory.within c m) {a : Nat}
    (ha : c.isBufferByte a = true) (v : Byte) : Memory.within c (Memory.write m a v) := by
  intro x hx
  rcases Memory.mem_write hx with rfl | hx
  · exact ha
  · exact h x hx

/-- Writing bytes to OBUF below its capacity keeps the memory inside the buffers. -/
theorem Memory.within_writeBytes {c : Config} {m : Memory} (h : Memory.within c m) (i : Nat) (vs : List Byte)
    (hi : i + vs.length ≤ c.obufBytes) : Memory.within c (Memory.writeBytes m (obufBase + i) vs) := by
  induction vs generalizing m i with
  | nil => exact h
  | cons v vs ih =>
    simp only [List.length_cons] at hi
    rw [Memory.writeBytes, Nat.add_assoc]
    refine ih (Memory.within_write h ?_ v) (i + 1) (by omega)
    simp [Config.isBufferByte, Config.isObufByte]
    omega

/-- An address below every listed one has no value. -/
theorem Memory.cellAt_eq_none {m : Memory} {a : Nat} (h : ∀ x ∈ m, a ≠ x.1) : Memory.cellAt m a = none := by
  induction m with
  | nil => rfl
  | cons c m ih =>
    rw [Memory.cellAt, if_neg (h c (by simp))]
    exact ih (fun x hx => h x (by simp [hx]))

/-- Canonical memories with equal contents are equal data. -/
theorem Memory.ext_of_wf {m m' : Memory} (h : Memory.wf m) (h' : Memory.wf m')
    (heq : ∀ a, Memory.cellAt m a = Memory.cellAt m' a) : m = m' := by
  induction m generalizing m' with
  | nil =>
    cases m' with
    | nil => rfl
    | cons c m' => have := heq c.1; simp [Memory.cellAt] at this
  | cons c m ih =>
    cases m' with
    | nil => have := heq c.1; simp [Memory.cellAt] at this
    | cons c' m' =>
      obtain ⟨hc, hm⟩ := List.pairwise_cons.mp h
      obtain ⟨hc', hm'⟩ := List.pairwise_cons.mp h'
      obtain ⟨a, v⟩ := c
      obtain ⟨a', v'⟩ := c'
      have haa : a = a' := by
        rcases Nat.lt_trichotomy a a' with hlt | heq' | hlt
        · have h1 := heq a
          rw [Memory.cellAt, if_pos rfl, Memory.cellAt_eq_none (m := (a', v') :: m')] at h1
          · simp at h1
          · intro x hx
            rcases List.mem_cons.mp hx with rfl | hx
            · simp; omega
            · have := hc' x hx; simp at this; omega
        · exact heq'
        · have h1 := heq a'
          rw [Memory.cellAt_eq_none (m := (a, v) :: m), Memory.cellAt, if_pos rfl] at h1
          · simp at h1
          · intro x hx
            rcases List.mem_cons.mp hx with rfl | hx
            · simp; omega
            · have := hc x hx; simp at this; omega
      subst a'
      have hv : v = v' := by
        have h1 := heq a
        simpa [Memory.cellAt] using h1
      subst v'
      congr 1
      refine ih hm hm' (fun x => ?_)
      by_cases hx : x = a
      · subst x
        rw [Memory.cellAt_eq_none (fun y hy => by have := hc y hy; simp at this; omega),
          Memory.cellAt_eq_none (fun y hy => by have := hc' y hy; simp at this; omega)]
      · have h1 := heq x
        simpa [Memory.cellAt, hx] using h1

/-- What a byte reads as after a byte is written. -/
theorem byteAt_write (s : State) (a x : Nat) (v : Byte) :
    State.byteAt { s with mem := Memory.write s.mem a v } x = if x = a then v else s.byteAt x := by
  simp only [State.byteAt, Memory.cellAt_write]
  by_cases h : x = a <;> simp [h]

/-- What a byte reads as after bytes are stored to OBUF. -/
theorem byteAt_storeObuf (s : State) (bs : List Byte) (x : Nat) :
    (storeObuf bs s).byteAt x =
      if obufBase ≤ x ∧ x < obufBase + bs.length then bs.getD (x - obufBase) 0 else s.byteAt x := by
  simp only [State.byteAt, storeObuf, Memory.cellAt_writeBytes]
  by_cases h : obufBase ≤ x ∧ x < obufBase + bs.length
  · rw [if_pos h, if_pos h, List.getElem?_eq_getElem (by omega), List.getD_eq_getElem _ _ (by omega)]
  · rw [if_neg h, if_neg h]

/-- OBUF after bytes are stored to it. -/
theorem obuf_storeObuf (s : State) (bs : List Byte) {i : Nat} (h : i < bs.length) :
    (storeObuf bs s).obuf i = bs.getD i 0 := by
  rw [State.obuf, byteAt_storeObuf, if_pos (by omega), Nat.add_sub_cancel_left]

/-- Storing to OBUF leaves every byte of IBUF alone. -/
theorem byteAt_storeObuf_below (s : State) (bs : List Byte) {x : Nat} (h : x < obufBase) :
    (storeObuf bs s).byteAt x = s.byteAt x := by
  rw [byteAt_storeObuf, if_neg (by omega)]

end Sys2Proof.Machine
end

