-- ==== Sys2Proof/Laws/Commands.lean ====
section
/-! SUPPORT. What a command can do, said once: how `finish` ends, the input check, and the one inversion lemma of each
meaning. Later proofs cite these and do not unfold the meanings. -/

namespace Sys2Proof.Machine

open Sys2Proof

/-- The two ways a command ends (R252). -/
theorem finish_next {α : Type} {op : BitVec 8} {r : Except StatusCode α} {commit : α → State → State}
    {s t : State} :
    finish op r commit s = .next t ↔
      (∃ c, r = .error c ∧ t = raiseStatus op c s) ∨ (∃ a, r = .ok a ∧ t = complete op (commit a s)) := by
  cases r <;> simp [finish, eq_comm]

theorem finish_error {α : Type} (op : BitVec 8) (c : StatusCode) (commit : α → State → State) (s : State) :
    finish op (.error c) commit s = .next (raiseStatus op c s) := rfl

theorem finish_ok {α : Type} (op : BitVec 8) (a : α) (commit : α → State → State) (s : State) :
    finish op (.ok a) commit s = .next (complete op (commit a s)) := rfl

/-- A command always has a next state. -/
theorem finish_proceeds {α : Type} (op : BitVec 8) (r : Except StatusCode α) (commit : α → State → State)
    (s : State) : Proceeds (finish op r commit s) := by
  cases r <;> exact ⟨_, rfl⟩

@[simp] theorem length_inputBytes (s : State) (n : Nat) : (inputBytes s n).length = n := by
  simp [inputBytes]

theorem getElem?_inputBytes (s : State) {n i : Nat} (h : i < n) : (inputBytes s n)[i]? = some (s.ibuf i) := by
  simp [inputBytes, h]

theorem getD_inputBytes (s : State) {n i : Nat} (h : i < n) : (inputBytes s n).getD i 0 = s.ibuf i := by
  simp [inputBytes, h]

/-- Two states whose first `n` bytes of IBUF agree have the same input. -/
theorem inputBytes_congr {s t : State} {n : Nat} (h : ∀ i, i < n → s.ibuf i = t.ibuf i) :
    inputBytes s n = inputBytes t n := by
  simp only [inputBytes]
  exact List.map_congr_left (fun i hi => h i (by simpa using hi))

/-- The input is the byte string whose bytes IBUF holds. -/
theorem inputBytes_eq {s : State} {d : List Byte} (h : ∀ i, i < d.length → s.ibuf i = d.getD i 0) :
    inputBytes s d.length = d := by
  apply List.ext_getElem (by simp)
  intro i h1 h2
  have := h i h2
  simpa [inputBytes, h2] using this

theorem checkedInput_error {s : State} (h : s.cfg.ibufBytes < s.ilen.toNat) :
    checkedInput s = .error .lengthOutOfRange := by
  simp [checkedInput, h]

theorem checkedInput_ok {s : State} (h : s.ilen.toNat ≤ s.cfg.ibufBytes) :
    checkedInput s = .ok (inputBytes s s.ilen.toNat) := by
  simp [checkedInput, Nat.not_lt.mpr h]

/-- The input check passes exactly when ILEN is within IBUF, and gives ILEN bytes. -/
theorem checkedInput_cases (s : State) :
    (s.cfg.ibufBytes < s.ilen.toNat ∧ checkedInput s = .error .lengthOutOfRange) ∨
    (s.ilen.toNat ≤ s.cfg.ibufBytes ∧ checkedInput s = .ok (inputBytes s s.ilen.toNat)) := by
  rcases Nat.lt_or_ge s.cfg.ibufBytes s.ilen.toNat with h | h
  · exact .inl ⟨h, checkedInput_error h⟩
  · exact .inr ⟨h, checkedInput_ok h⟩

theorem execSoftReset_next {s t : State} (h : execSoftReset s = .next t) :
    t = complete 0x01 (resetRegisters s) := by
  simpa [execSoftReset, finish_next] using h

theorem execCrcInit_next {s t : State} (h : execCrcInit s = .next t) :
    t = complete 0x10 { s with crc := 0xFFFF } := by
  simpa [execCrcInit, finish_next] using h

theorem execCrcByte_next {s t : State} (h : execCrcByte s = .next t) :
    t = complete 0x11 { s with crc := crcStep s.crc s.din } := by
  simpa [execCrcByte, finish_next] using h

theorem execCrcBuf_next {s t : State} (h : execCrcBuf s = .next t) :
    (s.cfg.ibufBytes < s.ilen.toNat ∧ t = raiseStatus 0x12 .lengthOutOfRange s) ∨
    (s.ilen.toNat ≤ s.cfg.ibufBytes ∧
      t = complete 0x12 { s with crc := crcFold s.crc (inputBytes s s.ilen.toNat) }) := by
  rcases checkedInput_cases s with ⟨hn, hc⟩ | ⟨hn, hc⟩ <;>
    simp [execCrcBuf, crcBufResult, hc, finish] at h <;> simp [hn, h]

/-- The verifier's three verdicts. -/
theorem verifyFcs_cases (d : List Byte) :
    (d.length < 2 ∧ verifyFcs d = .error .frameTooShort) ∨
    (2 ≤ d.length ∧ verifyFcs d = .error .fcsMismatch) ∨
    (2 ≤ d.length ∧ verifyFcs d = .ok (d.take (d.length - 2))) := by
  simp only [verifyFcs]
  split
  · exact .inl ⟨‹_›, rfl⟩
  · split
    · exact .inr (.inr ⟨by omega, rfl⟩)
    · exact .inr (.inl ⟨by omega, rfl⟩)

theorem execFcsCheck_next {s t : State} (h : execFcsCheck s = .next t) :
    (∃ c, c ∈ [StatusCode.lengthOutOfRange, .frameTooShort, .fcsMismatch] ∧ t = raiseStatus 0x13 c s) ∨
    t = complete 0x13 s := by
  rcases checkedInput_cases s with ⟨hn, hc⟩ | ⟨hn, hc⟩
  · simp [execFcsCheck, fcsCheckResult, hc, finish] at h
    exact .inl ⟨_, by simp, h.symm⟩
  · rcases verifyFcs_cases (inputBytes s s.ilen.toNat) with ⟨_, hv⟩ | ⟨_, hv⟩ | ⟨_, hv⟩ <;>
      simp [execFcsCheck, fcsCheckResult, hc, hv, finish] at h
    · exact .inl ⟨_, by simp, h.symm⟩
    · exact .inl ⟨_, by simp, h.symm⟩
    · exact .inr h.symm

theorem execRevByte_next {s t : State} (h : execRevByte s = .next t) :
    t = complete 0x20 { s with dout := rev8 s.din } := by
  simpa [execRevByte, finish_next] using h

theorem execRevBuf_next {s t : State} (h : execRevBuf s = .next t) :
    (∃ c, c ∈ [StatusCode.lengthOutOfRange, .outputOverflow] ∧ t = raiseStatus 0x21 c s) ∨
    (∃ out : List Byte, out = (inputBytes s s.ilen.toNat).map rev8 ∧ out.length ≤ s.cfg.obufBytes ∧
      t = complete 0x21 { storeObuf out s with olen := BitVec.ofNat 16 out.length }) := by
  rcases checkedInput_cases s with ⟨hn, hc⟩ | ⟨hn, hc⟩
  · simp [execRevBuf, revBufResult, hc, finish] at h
    exact .inl ⟨_, by simp, h.symm⟩
  · by_cases hf : s.ilen.toNat ≤ s.cfg.obufBytes
    · simp [execRevBuf, revBufResult, hc, finish, fitsObuf, hf] at h
      exact .inr ⟨_, rfl, by simpa using hf, by simpa using h.symm⟩
    · simp [execRevBuf, revBufResult, hc, finish, fitsObuf, hf] at h
      exact .inl ⟨_, by simp, h.symm⟩

theorem execHdlcEncode_next {s t : State} (h : execHdlcEncode s = .next t) :
    (∃ c, c ∈ [StatusCode.lengthOutOfRange, .outputOverflow] ∧ t = raiseStatus 0x30 c s) ∨
    (∃ line : Bits, s.ilen.toNat ≤ s.cfg.ibufBytes ∧ line = frameLine (inputBytes s s.ilen.toNat) ∧
      octets line.length ≤ s.cfg.obufBytes ∧
      t = complete 0x30 { storeObuf (packMSB line) s with
        olen := BitVec.ofNat 16 (octets line.length)
        obits := BitVec.ofNat 32 line.length }) := by
  rcases checkedInput_cases s with ⟨hn, hc⟩ | ⟨hn, hc⟩
  · simp [execHdlcEncode, hdlcEncodeResult, hc, finish] at h
    exact .inl ⟨_, by simp, h.symm⟩
  · by_cases hf : octets (frameLine (inputBytes s s.ilen.toNat)).length ≤ s.cfg.obufBytes
    · simp [execHdlcEncode, hdlcEncodeResult, hc, finish, fitsObuf, hf] at h
      exact .inr ⟨_, hn, rfl, hf, h.symm⟩
    · simp [execHdlcEncode, hdlcEncodeResult, hc, finish, fitsObuf, hf] at h
      exact .inl ⟨_, by simp, h.symm⟩

/-- The errors of deframing are those of R203, without the two that a length gives. -/
theorem deframe_error {raw : Bits} {c : StatusCode} (h : deframe raw = .error c) :
    c ∈ [StatusCode.noOpeningFlag, .bitStuffingViolation, .noClosingFlag, .nonOctetFrame, .frameTooShort,
      .fcsMismatch] := by
  simp only [deframe] at h
  split at h
  · cases h; simp
  · split at h
    · cases h; simp
    · cases h; simp
    · split at h
      · cases h; simp
      · rename_i body _ _ _
        rcases verifyFcs_cases (packMSB body) with ⟨_, hv⟩ | ⟨_, hv⟩ | ⟨_, hv⟩ <;> rw [hv] at h <;>
          cases h <;> simp

theorem execHdlcDecode_next {s t : State} (h : execHdlcDecode s = .next t) :
    (∃ c, c ∈ [StatusCode.lengthOutOfRange, .noOpeningFlag, .bitStuffingViolation, .noClosingFlag, .nonOctetFrame,
        .frameTooShort, .fcsMismatch, .outputOverflow] ∧ t = raiseStatus 0x31 c s) ∨
    (∃ (p : List Byte) (used : Nat), s.ilen.toNat ≤ s.cfg.ibufBytes ∧
      deframe (bitsMSB (inputBytes s s.ilen.toNat)) = .ok (p, used) ∧ p.length ≤ s.cfg.obufBytes ∧
      t = complete 0x31 { storeObuf (p.map rev8) s with
        olen := BitVec.ofNat 16 p.length
        obits := BitVec.ofNat 32 used }) := by
  rcases checkedInput_cases s with ⟨hn, hc⟩ | ⟨hn, hc⟩
  · simp [execHdlcDecode, hdlcDecodeResult, hc, finish] at h
    exact .inl ⟨_, by simp, h.symm⟩
  · cases hd : deframe (bitsMSB (inputBytes s s.ilen.toNat)) with
    | error c =>
      have hm := deframe_error hd
      simp [execHdlcDecode, hdlcDecodeResult, hc, hd, finish] at h
      refine .inl ⟨c, ?_, h.symm⟩
      simp only [List.mem_cons] at hm ⊢
      tauto
    | ok r =>
      obtain ⟨p, used⟩ := r
      by_cases hf : p.length ≤ s.cfg.obufBytes
      · simp [execHdlcDecode, hdlcDecodeResult, hc, hd, finish, fitsObuf, hf] at h
        exact .inr ⟨p, used, hn, rfl, hf, h.symm⟩
      · simp [execHdlcDecode, hdlcDecodeResult, hc, hd, finish, fitsObuf, hf] at h
        exact .inl ⟨_, by simp, h.symm⟩

@[simp] theorem length_encodeAddress (a : AddrSlot) (e : Bool) : (encodeAddress a e).length = 7 := rfl

/-- An address field is seven bytes for each slot (R103). -/
@[simp] theorem length_encodeField (l : List AddrSlot) : (encodeField l).length = 7 * l.length := by
  induction l with
  | nil => rfl
  | cons a l ih =>
    cases l with
    | nil => rfl
    | cons b l => simp only [encodeField, List.length_append, length_encodeAddress, ih, List.length_cons]; omega

theorem length_usedSlots (s : State) {r : Nat} (h : r ≤ 8) : (usedSlots s r).length = 2 + r := by
  simp [usedSlots]; omega

theorem execAddrEncode_next {s t : State} (h : execAddrEncode s = .next t) :
    (∃ c, c ∈ [StatusCode.tooManyRepeaters, .invalidCallsignLength, .outputOverflow] ∧ t = raiseStatus 0x40 c s) ∨
    (∃ field : List Byte, s.nrep.toNat ≤ 8 ∧ field = encodeField (usedSlots s s.nrep.toNat) ∧
      field.length = fieldLength s.nrep.toNat ∧ field.length ≤ s.cfg.obufBytes ∧
      t = complete 0x40 { storeObuf field s with
        olen := BitVec.ofNat 16 field.length
        hlen := BitVec.ofNat 8 field.length }) := by
  rcases finish_next.mp h with ⟨c, hr, rfl⟩ | ⟨field, hr, rfl⟩
  · refine .inl ⟨c, ?_, rfl⟩
    simp only [addrEncodeResult] at hr
    split at hr
    · cases hr; simp
    · split at hr
      · cases hr; simp
      · split at hr <;> cases hr; simp
  · refine .inr ⟨field, ?_⟩
    simp only [addrEncodeResult] at hr
    split at hr
    · cases hr
    · split at hr
      · cases hr
      · split at hr
        · rename_i h8 _ hf
          cases hr
          have hl : (encodeField (usedSlots s s.nrep.toNat)).length = fieldLength s.nrep.toNat := by
            rw [length_encodeField, length_usedSlots s (by omega), fieldLength]; omega
          refine ⟨by omega, rfl, hl, ?_, rfl⟩
          rw [hl]
          simpa [fitsObuf] using hf
        · cases hr

/-- The walk finds at most as many repeaters as it may, or ends with one of two codes. -/
theorem walkRepeaters_cases (s : State) (left j : Nat) :
    (∃ c, c ∈ [StatusCode.truncatedAddressField, .tooManyRepeaters] ∧ walkRepeaters s left j = .error c) ∨
    (∃ ps : List AddrSlot, ps.length ≤ left ∧ walkRepeaters s left j = .ok ps) := by
  induction left generalizing j with
  | zero => exact .inl ⟨_, by simp, rfl⟩
  | succ left ih =>
    simp only [walkRepeaters]
    split
    · exact .inl ⟨_, by simp, rfl⟩
    · split
      · exact .inr ⟨_, by simp, rfl⟩
      · rcases ih (j + 1) with ⟨c, hc, hw⟩ | ⟨ps, hl, hw⟩
        · exact .inl ⟨c, hc, by rw [hw]⟩
        · exact .inr ⟨_ :: ps, by simpa using hl, by rw [hw]⟩

theorem execAddrDecode_next {s t : State} (h : execAddrDecode s = .next t) :
    (∃ c, c ∈ [StatusCode.lengthOutOfRange, .truncatedAddressField, .tooManyRepeaters] ∧ t = raiseStatus 0x41 c s) ∨
    (∃ f : ParsedField, f.repeaters.length ≤ 8 ∧ addrDecodeResult s = .ok f ∧
      t = complete 0x41 { s with
        ar := setSlots s.ar 0 (f.dst :: f.src :: f.repeaters)
        nrep := BitVec.ofNat 4 f.repeaters.length
        hdr := { cr := f.dst.ch, srcCr := f.src.ch }
        hlen := BitVec.ofNat 8 (fieldLength f.repeaters.length) }) := by
  rcases finish_next.mp h with ⟨c, hr, rfl⟩ | ⟨f, hr, rfl⟩
  · refine .inl ⟨c, ?_, rfl⟩
    simp only [addrDecodeResult] at hr
    split at hr
    · cases hr; simp
    · split at hr
      · cases hr; simp
      · split at hr
        · cases hr
        · rcases walkRepeaters_cases s 8 1 with ⟨c', hc', hw⟩ | ⟨ps, _, hw⟩
          · rw [hw] at hr
            cases hr
            simp only [List.mem_cons] at hc' ⊢
            tauto
          · rw [hw] at hr; cases hr
  · refine .inr ⟨f, ?_, hr, rfl⟩
    simp only [addrDecodeResult] at hr
    split at hr
    · cases hr
    · split at hr
      · cases hr
      · split at hr
        · cases hr; simp
        · rcases walkRepeaters_cases s 8 1 with ⟨c', _, hw⟩ | ⟨ps, hl, hw⟩
          · rw [hw] at hr; cases hr
          · rw [hw] at hr; cases hr; exact hl

/-- Every command's meaning is a `finish`, so it always has a next state. -/
theorem exec_proceeds (i : Instr) (s : State) : Proceeds (exec i s) := by
  cases i <;>
    simp only [exec, execSoftReset, execCrcInit, execCrcByte, execCrcBuf, execFcsCheck, execRevByte, execRevBuf,
      execHdlcEncode, execHdlcDecode, execAddrEncode, execAddrDecode, finish_proceeds]

end Sys2Proof.Machine
end

