-- ==== Sys2Proof/Laws/Bits.lean ====
section
/-! SUPPORT. The laws of bits and bytes: reversal, serialization, packing, the stuffing engine's length, and the CRC's
shift. -/

namespace Sys2Proof.Machine

open Sys2Proof

/-- The bits of `byteOf`, in the order of its arguments. -/
theorem getLsbD_byteOf (b7 b6 b5 b4 b3 b2 b1 b0 : Bool) {j : Nat} (h : j < 8) :
    (byteOf b7 b6 b5 b4 b3 b2 b1 b0).getLsbD (7 - j) = [b7, b6, b5, b4, b3, b2, b1, b0].getD j false := by
  revert j b7 b6 b5 b4 b3 b2 b1 b0
  decide

/-- Where each bit goes under reversal (R140). -/
theorem getLsbD_rev8 (b : Byte) {i : Nat} (h : i < 8) : (rev8 b).getLsbD i = b.getLsbD (7 - i) := by
  have := getLsbD_byteOf (b.getLsbD 0) (b.getLsbD 1) (b.getLsbD 2) (b.getLsbD 3) (b.getLsbD 4) (b.getLsbD 5)
    (b.getLsbD 6) (b.getLsbD 7) (j := 7 - i) (by omega)
  rw [show 7 - (7 - i) = i by omega] at this
  rw [rev8, this]
  have hi : i = 0 ∨ i = 1 ∨ i = 2 ∨ i = 3 ∨ i = 4 ∨ i = 5 ∨ i = 6 ∨ i = 7 := by omega
  rcases hi with rfl | rfl | rfl | rfl | rfl | rfl | rfl | rfl <;> rfl

/-- Two bytes with the same eight bits are the same. -/
theorem byte_ext {a b : Byte} (h : ∀ i, i < 8 → a.getLsbD i = b.getLsbD i) : a = b :=
  BitVec.eq_of_getLsbD_eq h

@[simp] theorem rev8_rev8 (b : Byte) : rev8 (rev8 b) = b :=
  byte_ext (fun i h => by rw [getLsbD_rev8 _ h, getLsbD_rev8 _ (by omega)]; congr 1; omega)

@[simp] theorem length_byteBits (b : Byte) : (byteBits b).length = 8 := rfl

/-- A byte's bits, by index (R190). -/
theorem getD_byteBits (b : Byte) {j : Nat} (h : j < 8) : (byteBits b).getD j false = b.getLsbD (7 - j) := by
  have hj : j = 0 ∨ j = 1 ∨ j = 2 ∨ j = 3 ∨ j = 4 ∨ j = 5 ∨ j = 6 ∨ j = 7 := by omega
  rcases hj with rfl | rfl | rfl | rfl | rfl | rfl | rfl | rfl <;> rfl

@[simp] theorem bitsMSB_nil : bitsMSB [] = [] := rfl

@[simp] theorem bitsMSB_cons (b : Byte) (d : List Byte) : bitsMSB (b :: d) = byteBits b ++ bitsMSB d := rfl

@[simp] theorem bitsMSB_append (d e : List Byte) : bitsMSB (d ++ e) = bitsMSB d ++ bitsMSB e := by
  simp [bitsMSB]

theorem length_bitsMSB (d : List Byte) : (bitsMSB d).length = 8 * d.length := by
  induction d with
  | nil => rfl
  | cons b d ih => simp [ih]; omega

/-- Bit 7 - j of a packed byte is bit j of the sequence, or 0 past its end (R191). -/
theorem getLsbD_packByte (s : Bits) {j : Nat} (h : j < 8) : (packByte s).getLsbD (7 - j) = s.getD j false := by
  rw [packByte, getLsbD_byteOf _ _ _ _ _ _ _ _ h]
  have hj : j = 0 ∨ j = 1 ∨ j = 2 ∨ j = 3 ∨ j = 4 ∨ j = 5 ∨ j = 6 ∨ j = 7 := by omega
  rcases hj with rfl | rfl | rfl | rfl | rfl | rfl | rfl | rfl <;> rfl

theorem packByte_byteBits (b : Byte) (s : Bits) : packByte (byteBits b ++ s) = b :=
  byte_ext (fun i h => by
    have := getLsbD_packByte (byteBits b ++ s) (j := 7 - i) (by omega)
    rw [show 7 - (7 - i) = i by omega] at this
    rw [this, List.getD_append _ _ _ _ (by simp; omega), getD_byteBits b (by omega)]
    congr 1; omega)

@[simp] theorem length_packBytes (n : Nat) (s : Bits) : (packBytes n s).length = n := by
  induction n generalizing s with
  | zero => rfl
  | succ n ih => simp [packBytes, ih]

@[simp] theorem length_packMSB (s : Bits) : (packMSB s).length = octets s.length := by
  simp [packMSB]

/-- Byte i of packed bits is packed from position 8i on. -/
theorem getD_packBytes (n : Nat) (s : Bits) {i : Nat} (h : i < n) :
    (packBytes n s).getD i 0 = packByte (s.drop (8 * i)) := by
  induction n generalizing s i with
  | zero => omega
  | succ n ih =>
    cases i with
    | zero => rfl
    | succ i =>
      rw [packBytes, List.getD_cons_succ, ih _ (by omega), List.drop_drop]
      congr 2; omega

/-- Packing a whole byte's bits gives the byte and then the rest (R191). -/
theorem packMSB_byteBits_append (b : Byte) (s : Bits) : packMSB (byteBits b ++ s) = b :: packMSB s := by
  have h : octets (byteBits b ++ s).length = octets s.length + 1 := by
    simp only [octets, List.length_append, length_byteBits]; omega
  rw [packMSB, h, packBytes, packByte_byteBits, packMSB]
  congr 2

/-- A sequence of whole bytes is the serialization of its packing. -/
theorem exists_bitsMSB (s : Bits) (h : s.length % 8 = 0) : ∃ d : List Byte, s = bitsMSB d := by
  induction hn : s.length / 8 generalizing s with
  | zero => exact ⟨[], by simp; exact List.length_eq_zero_iff.mp (by omega)⟩
  | succ n ih =>
    obtain ⟨d, hd⟩ := ih (s.drop 8) (by simp; omega) (by simp; omega)
    refine ⟨packByte s :: d, ?_⟩
    rw [bitsMSB_cons, ← hd]
    conv_lhs => rw [← List.take_append_drop 8 s]
    congr 1
    apply List.ext_getElem (by simp; omega)
    intro i h1 h2
    have hi : i < 8 := by simpa using h2
    have h3 := getLsbD_packByte s hi
    have h4 := getD_byteBits (packByte s) hi
    rw [List.getD_eq_getElem _ _ h2] at h4
    rw [h4, h3, List.getElem_take, List.getD_eq_getElem]

/-- Stuffing adds at most one bit for five, counting the run so far. -/
theorem length_stuffFrom_le (s : Bits) (ones : Nat) (h : ones < 5) :
    5 * (stuffFrom ones s).length ≤ 6 * s.length + ones := by
  induction s generalizing ones with
  | nil => simp [stuffFrom]
  | cons b s ih =>
    cases b with
    | false => have := ih 0 (by omega); simp [stuffFrom]; omega
    | true =>
      simp only [stuffFrom]
      split
      · have := ih 0 (by omega); simp; omega
      · have := ih (ones + 1) (by omega); simp; omega

theorem le_length_stuffFrom (s : Bits) (ones : Nat) : s.length ≤ (stuffFrom ones s).length := by
  induction s generalizing ones with
  | nil => simp
  | cons b s ih =>
    cases b with
    | false => have := ih 0; simp [stuffFrom]; omega
    | true =>
      simp only [stuffFrom]
      split
      · have := ih 0; simp; omega
      · have := ih (ones + 1); simp; omega

/-- One shift of the CRC is linear (R160). -/
theorem crcShift_xor (c d : BitVec 16) : crcShift (c ^^^ d) = crcShift c ^^^ crcShift d := by
  simp only [crcShift, BitVec.getLsbD_xor, BitVec.ushiftRight_xor_distrib]
  cases c.getLsbD 0 <;> cases d.getLsbD 0
  · rfl
  · simp [BitVec.xor_assoc]
  · simp only [Bool.xor_false, if_true, Bool.false_eq_true, if_false]; ac_rfl
  · simp only [Bool.xor_true, Bool.not_true, if_true, Bool.false_eq_true, if_false]
    calc c >>> 1 ^^^ d >>> 1
        = (c >>> 1 ^^^ d >>> 1) ^^^ ((0x8408 : BitVec 16) ^^^ 0x8408) := by simp
      _ = (c >>> 1 ^^^ 0x8408) ^^^ (d >>> 1 ^^^ 0x8408) := by ac_rfl

/-- One shift of the CRC loses nothing: only 0 shifts to 0. -/
theorem crcShift_eq_zero {c : BitVec 16} (h : crcShift c = 0) : c = 0 := by
  have h15 : (crcShift c).getLsbD 15 = c.getLsbD 0 := by
    simp only [crcShift]
    split <;> simp_all
  have h0 : c.getLsbD 0 = false := by rw [← h15, h]; rfl
  have hs : c >>> 1 = 0 := by simpa only [crcShift, h0, Bool.false_eq_true, if_false] using h
  apply BitVec.eq_of_getLsbD_eq
  intro i hi
  cases i with
  | zero => simpa using h0
  | succ i =>
    have : (c >>> 1).getLsbD i = false := by rw [hs]; simp
    simpa [Nat.add_comm] using this

end Sys2Proof.Machine
end

