-- ==== Sys2Proof/Laws/Address.lean ====
section
/-! SUPPORT. The laws of the address field: which slot and which group stand where, what trimming leaves, and what the
slots hold after a decode. -/

namespace Sys2Proof.Machine

open Sys2Proof

/-- Slot `k` of the slots a serialization uses is AR[k] (R110). -/
theorem getElem_usedSlots (s : State) (r k : Nat) (hk : k < 10) (hr : k < 2 + r) :
    (usedSlots s r)[k]'(by simp [usedSlots]; omega) = s.ar[k] := by
  simp [usedSlots]

/-- Byte `i` of group `k` of a field is byte `i` of slot `k`'s encoding, with the extension bit on the last group only
(R103). -/
theorem getD_encodeField (l : List AddrSlot) (k : Nat) (hk : k < l.length) (i : Nat) (hi : i < 7) :
    (encodeField l).getD (7 * k + i) 0 = (encodeAddress l[k] (decide (k + 1 = l.length))).getD i 0 := by
  induction l generalizing k with
  | nil => simp at hk
  | cons a l ih =>
    cases l with
    | nil =>
      have : k = 0 := by simpa using hk
      subst this
      simp [encodeField]
    | cons b l =>
      simp only [encodeField]
      cases k with
      | zero =>
        rw [List.getD_append _ _ _ _ (by simp; omega)]
        simp
      | succ k =>
        rw [List.getD_append_right _ _ _ _ (by simp; omega)]
        simp only [length_encodeAddress]
        rw [show 7 * (k + 1) + i - 7 = 7 * k + i by omega, ih k (by simpa using hk)]
        simp

/-- The slots after `setSlots`: the new ones where they were put, the old ones elsewhere (R120). -/
theorem getElem_setSlots (ar : Vector AddrSlot 10) (k₀ : Nat) (l : List AddrSlot) (k : Nat) (hk : k < 10) :
    (setSlots ar k₀ l)[k] = if h : k₀ ≤ k ∧ k < k₀ + l.length then l[k - k₀]'(by omega) else ar[k] := by
  induction l generalizing ar k₀ with
  | nil => simp [setSlots]
  | cons a l ih =>
    simp only [setSlots]
    rw [ih]
    by_cases h1 : k₀ + 1 ≤ k ∧ k < k₀ + 1 + l.length
    · rw [dif_pos h1, dif_pos (by simp; omega)]
      simp only [show k - k₀ = (k - (k₀ + 1)) + 1 by omega, List.getElem_cons_succ]
    · rw [dif_neg h1, Vector.getElem_setIfInBounds hk]
      by_cases h2 : k₀ = k
      · subst h2; simp
      · rw [if_neg h2, dif_neg (by simp; omega)]

/-- The trimmed length: no more than the characters there are, only spaces from it on, and a character that is not a
space just before it unless nothing was found (R102). -/
theorem trimmedLength_spec (l : List Byte) (i len : Nat) (hl : len ≤ i) :
    trimmedLength l i len ≤ i + l.length ∧ len ≤ trimmedLength l i len ∧
    (∀ j, j < l.length → trimmedLength l i len ≤ i + j → l.getD j 0 = space) ∧
    (trimmedLength l i len = len ∨
      ∃ j, j < l.length ∧ i + j + 1 = trimmedLength l i len ∧ l.getD j 0 ≠ space) := by
  induction l generalizing i len with
  | nil =>
    exact ⟨by simp [trimmedLength]; omega, by simp [trimmedLength], fun j hj => by simp at hj, .inl rfl⟩
  | cons c l ih =>
    simp only [trimmedLength]
    by_cases hc : c = space
    · rw [if_pos hc]
      obtain ⟨h1, h2, h3, h4⟩ := ih (i + 1) len (by omega)
      refine ⟨by simp; omega, h2, ?_, ?_⟩
      · intro j hj h
        cases j with
        | zero => simpa using hc
        | succ j => exact h3 j (by simpa using hj) (by omega)
      · rcases h4 with h4 | ⟨j, h5, h6, h7⟩
        · exact .inl h4
        · exact .inr ⟨j + 1, by simpa using h5, by omega, h7⟩
    · rw [if_neg hc]
      obtain ⟨h1, h2, h3, h4⟩ := ih (i + 1) (i + 1) (by omega)
      refine ⟨by simp; omega, by omega, ?_, ?_⟩
      · intro j hj h
        cases j with
        | zero => omega
        | succ j => exact h3 j (by simpa using hj) (by omega)
      · rcases h4 with h4 | ⟨j, h5, h6, h7⟩
        · exact .inr ⟨0, by simp, by omega, by simpa using hc⟩
        · exact .inr ⟨j + 1, by simpa using h5, by omega, h7⟩

end Sys2Proof.Machine
end

