-- ==== Sys2Proof/Laws/Hdlc.lean ====
section
/-! SUPPORT. The laws of the deframer and of the stuffing engine: where a found flag can stand, how many bits a frame
uses, and that a stuffed sequence never runs to six. -/

namespace Sys2Proof.Machine

open Sys2Proof

/-- A flag that stands at the front is eight bits long. -/
theorem startsWithFlag_length {s : Bits} (h : startsWithFlag s = true) : 8 ≤ s.length := by
  have h' : s.take 8 = flagBits := by simpa [startsWithFlag] using h
  have := congrArg List.length h'
  simp [flagBits] at this
  omega

/-- A found flag lies inside the sequence (R203). -/
theorem findFlag_bounds {raw : Bits} {i k : Nat} (h : findFlag raw i = some k) : i ≤ k ∧ k + 8 ≤ i + raw.length := by
  induction raw generalizing i with
  | nil => cases h
  | cons b raw ih =>
    simp only [findFlag] at h
    split at h
    · rename_i hf
      cases h
      have := startsWithFlag_length hf
      exact ⟨by omega, by omega⟩
    · have := ih h
      simp; omega

/-- A closing flag lies inside the sequence (R193). -/
theorem scanFrom_close_bound {raw : Bits} {j ones k : Nat} {rbody body : Bits}
    (h : scanFrom raw j ones rbody = .close body k) : k + 8 ≤ j + raw.length := by
  induction raw generalizing j ones rbody with
  | nil => cases h
  | cons b raw ih =>
    simp only [scanFrom] at h
    split at h
    · rename_i hf
      cases h
      have := startsWithFlag_length hf
      omega
    · split at h
      · split at h
        · cases h
        · have := ih h; simp; omega
      · have := ih h; simp; omega

/-- A frame uses no more bits than the input has (R27, R203). -/
theorem deframe_used_le {raw : Bits} {p : List Byte} {used : Nat} (h : deframe raw = .ok (p, used)) :
    used ≤ raw.length := by
  simp only [deframe] at h
  split at h
  · cases h
  · rename_i i hf
    have h1 := findFlag_bounds hf
    split at h
    · cases h
    · cases h
    · split at h
      · cases h
      · split at h
        · cases h
        · rename_i hs _ _ _ _
          cases h
          have := scanFrom_close_bound hs
          simp at this
          omega

/-- After `ones` 1-bits, the sequence never completes six in a row. -/
def NoSix : Nat → Bits → Prop
  | _, [] => True
  | ones, true :: s => ones + 1 < 6 ∧ NoSix (ones + 1) s
  | _, false :: s => NoSix 0 s

/-- What the stuffing engine sends never completes six 1-bits (R192). -/
theorem noSix_stuffFrom (s : Bits) (ones : Nat) (h : ones ≤ 4) : NoSix ones (stuffFrom ones s) := by
  induction s generalizing ones with
  | nil => trivial
  | cons b s ih =>
    cases b with
    | false => exact ih 0 (by omega)
    | true =>
      simp only [stuffFrom]
      split
      · exact ⟨by omega, ih 0 (by omega)⟩
      · exact ⟨by omega, ih _ (by omega)⟩

/-- A shorter run before the sequence is no worse. -/
theorem NoSix.mono {s : Bits} {m n : Nat} (h : NoSix n s) (hmn : m ≤ n) : NoSix m s := by
  induction s generalizing m n with
  | nil => trivial
  | cons b s ih =>
    cases b with
    | false => exact h
    | true => exact ⟨by have := h.1; omega, ih h.2 (by omega)⟩

end Sys2Proof.Machine
end

