-- ==== Sys2Proof/Laws/PerInstr.lean ====
section
/-! SUPPORT. Laws of every command as syntax, one lemma per command. -/

namespace Sys2Proof.Laws.Encoding

open Sys2Proof

/-- A command is well formed, its word's RSVD field is 0 and its word's OPCODE field is its opcode (R80, R82, R83). -/
def Statement (i : Instr) : Prop :=
  i.wellFormed = true ∧ reservedField (encode i) = 0 ∧ opcodeField (encode i) = i.opcode

theorem softReset : Statement .softReset := by unfold Statement; decide
theorem crcInit : Statement .crcInit := by unfold Statement; decide
theorem crcByte : Statement .crcByte := by unfold Statement; decide
theorem crcBuf : Statement .crcBuf := by unfold Statement; decide
theorem fcsCheck : Statement .fcsCheck := by unfold Statement; decide
theorem revByte : Statement .revByte := by unfold Statement; decide
theorem revBuf : Statement .revBuf := by unfold Statement; decide
theorem hdlcEncode : Statement .hdlcEncode := by unfold Statement; decide
theorem hdlcDecode : Statement .hdlcDecode := by unfold Statement; decide
theorem addrEncode : Statement .addrEncode := by unfold Statement; decide
theorem addrDecode : Statement .addrDecode := by unfold Statement; decide

end Sys2Proof.Laws.Encoding
end

