-- ==== Sys2Proof/Tests/Slice0.lean ====
section
/-! SUPPORT. The model's own tests: the checks of WellFormed, decoding of words written out from the spec, one-step tests
whose expected values are the spec's vectors (spec/95_test_vectors.md), and for every statement with hypotheses a
witness that meets them. -/

namespace Sys2Proof.Tests

open Sys2Proof Sys2Proof.Machine Sys2Proof.Claims

/-! ## Helpers -/

/-- Reset with the bytes `d` in IBUF from index 0 on and ILEN their number. -/
def withInput (d : List Byte) : State :=
  { State.reset with mem := Memory.writeBytes [] 0x10000 d, ilen := BitVec.ofNat 16 d.length }

/-- Reset with moves of the host to come. -/
def hostDoes (is : List Input) : State := { State.reset with inputs := is }

/-- Reset with an ILEN, nothing written to IBUF. -/
def withLength (n : Nat) : State := { State.reset with ilen := BitVec.ofNat 16 n }

/-- The outcome is a next state that passes the test. -/
def nextMeets (o : Host.Outcome State Fault Refusal) (p : State → Bool) : Bool :=
  match o with
  | .next t => p t
  | _ => false

/-- The outcome is a refusal of a move outside the host interface. -/
def isOutside (o : Host.Outcome State Fault Refusal) : Bool :=
  match o with
  | .refused .outsideHostInterface => true
  | _ => false

/-- `OBUF[0 .. OLEN-1]`. -/
def outBytes (t : State) : List Byte := (List.range t.olen.toNat).map t.obuf

theorem exists_next {o : Host.Outcome State Fault Refusal} {P : State → Prop} [DecidablePred P]
    (h : nextMeets o (fun t => decide (P t)) = true) : ∃ t, o = .next t ∧ P t := by
  cases o with
  | next t => exact ⟨t, rfl, by simpa [nextMeets] using h⟩
  | fault r => cases r
  | refused r => simp [nextMeets] at h

/-- The input of a state is what its IBUF holds. -/
theorem inputIs_inputBytes (s : State) : InputIs s (inputBytes s s.ilen.toNat) :=
  ⟨by simp, fun i h => by rw [getD_inputBytes s (by simpa using h)]⟩

theorem inputIs_withInput {d : List Byte} (h : d.length < 65536) : InputIs (withInput d) d := by
  refine ⟨by simp [withInput]; omega, fun i hi => ?_⟩
  have : Memory.cellAt (withInput d).mem (0x10000 + i) = some (d.getD i 0) := by
    simp only [withInput, Memory.cellAt_writeBytes]
    rw [if_pos ⟨by omega, by omega⟩, Nat.add_sub_cancel_left]
    simp [hi]
  simp only [State.ibuf, State.byteAt, ibufBase, this]

/-! ## WellFormed: each check refuses an ill-formed term -/

theorem test_wf_ibuf_too_small : Config.wellFormed ⟨69, 256⟩ = false := by decide
theorem test_wf_ibuf_too_large : Config.wellFormed ⟨65536, 256⟩ = false := by decide
theorem test_wf_obuf_too_small : Config.wellFormed ⟨256, 69⟩ = false := by decide
theorem test_wf_obuf_too_large : Config.wellFormed ⟨256, 65536⟩ = false := by decide
theorem test_wf_capacities : Config.wellFormed ⟨70, 65535⟩ = true := by decide
theorem test_wf_unaligned_write : (Input.writeWord 0x00009 0).wellFormed Config.standard = false := by decide
theorem test_wf_unaligned_read : (Input.readWord 0x0000A).wellFormed Config.standard = false := by decide
theorem test_wf_word_at_ibuf : (Input.readWord 0x10000).wellFormed Config.standard = false := by decide
theorem test_wf_word_at_obuf : (Input.writeWord 0x200FC 0).wellFormed Config.standard = false := by decide
theorem test_wf_byte_at_register : (Input.writeByte 0x00FFF 0).wellFormed Config.standard = false := by decide
theorem test_wf_byte_read_at_register : (Input.readByte 0x00008).wellFormed Config.standard = false := by decide
theorem test_wf_accesses :
    (Input.writeWord 0x0008C 0).wellFormed Config.standard = true ∧
    (Input.readByte 0x200FF).wellFormed Config.standard = true ∧
    (Input.readWord 0x10100).wellFormed Config.standard = true := by decide
theorem test_wf_stmt_wrb : (Stmt.wrb .ibuf 65536 0).wellFormed = false := by decide
theorem test_wf_stmt_rdb : (Stmt.rdb .obuf 65536).wellFormed = false := by decide
theorem test_wf_stmt_load : (Stmt.load 65535 [0x01, 0x02]).wellFormed = false := by decide
theorem test_wf_stmts :
    (Stmt.wrb .obuf 65535 0).wellFormed = true ∧ (Stmt.load 65534 [0x01, 0x02]).wellFormed = true := by decide

/-! ## Decoding: words written out from the opcode map (R80, R83) -/

theorem test_decode_softReset : decode 0b00000000000000000000000000000001 = .ok .softReset := by decide
theorem test_decode_crcInit : decode 0b00000000000000000000000000010000 = .ok .crcInit := by decide
theorem test_decode_crcByte : decode 0b00000000000000000000000000010001 = .ok .crcByte := by decide
theorem test_decode_crcBuf : decode 0b00000000000000000000000000010010 = .ok .crcBuf := by decide
theorem test_decode_fcsCheck : decode 0b00000000000000000000000000010011 = .ok .fcsCheck := by decide
theorem test_decode_revByte : decode 0b00000000000000000000000000100000 = .ok .revByte := by decide
theorem test_decode_revBuf : decode 0b00000000000000000000000000100001 = .ok .revBuf := by decide
theorem test_decode_hdlcEncode : decode 0b00000000000000000000000000110000 = .ok .hdlcEncode := by decide
theorem test_decode_hdlcDecode : decode 0b00000000000000000000000000110001 = .ok .hdlcDecode := by decide
theorem test_decode_addrEncode : decode 0b00000000000000000000000001000000 = .ok .addrEncode := by decide
theorem test_decode_addrDecode : decode 0b00000000000000000000000001000001 = .ok .addrDecode := by decide

/-- The edges of every illegal range of R85, and R231's word with nonzero RSVD bits. -/
theorem test_decode_illegal :
    decode 0x00 = .error .unassignedOpcode ∧ decode 0x02 = .error .unassignedOpcode ∧
    decode 0x0F = .error .unassignedOpcode ∧ decode 0x14 = .error .unassignedOpcode ∧
    decode 0x1F = .error .unassignedOpcode ∧ decode 0x22 = .error .unassignedOpcode ∧
    decode 0x2F = .error .unassignedOpcode ∧ decode 0x32 = .error .unassignedOpcode ∧
    decode 0x3F = .error .unassignedOpcode ∧ decode 0x42 = .error .unassignedOpcode ∧
    decode 0xFF = .error .unassignedOpcode ∧ decode 0x00000130 = .error .reservedBits ∧
    decode 0x80000001 = .error .reservedBits := by decide

theorem test_decodeTableWord :
    decodeTableWord 32 0x00000041 = some .addrDecode ∧ decodeTableWord 32 0x00000130 = none := by decide

/-- The bus accesses of program P1 (spec/95_test_vectors.md). -/
theorem test_program_notation :
    programInputs [.wr (.arHi 1) 0x06164C4B, .cmd .addrEncode, .rd .status, .rdb .obuf 13, .load 14 [0x03, 0xF0],
      .wr .ilen 20] =
    [.writeWord 0x0004C 0x06164C4B, .writeWord 0x00000 0x00000040, .readWord 0x00004, .readByte 0x2000D,
      .writeByte 0x1000E 0x03, .writeByte 0x1000F 0xF0, .writeWord 0x00008 0x00000014] := by decide

/-! ## One step of the host port -/

/-- The very next step runs the word that is stored to be fetched. -/
theorem test_withFetchWord :
    nextMeets (step (State.reset.withFetchWord 32 0x20)) (fun t => t.status.word == 0x00002000) = true := by decide

/-- P4, steps 7 to 10: illegal words (R231). -/
theorem test_illegal_word :
    nextMeets (step (State.reset.withFetchWord 32 0x130)) (fun t => t.status.word == 0x0000300C) = true ∧
    nextMeets (step (State.reset.withFetchWord 32 0)) (fun t => t.status.word == 0x0000000C) = true := by decide

/-- P4, step 1: bits 31:16 of ILEN are ignored (R25). -/
theorem test_write_ilen :
    nextMeets (step (hostDoes [.writeWord 0x00008 0x00010005])) (fun t => t.regWord .ilen == 0x00000005) = true := by
  decide

/-- L1-1: the words of a slot, with the reserved bits of ARk_HI ignored (R36, R37). -/
theorem test_write_slot :
    nextMeets (step (hostDoes [.writeWord 0x00044 0xF77E4645]))
      (fun t => t.regWord (.arHi 0) == 0x07764645 && (t.ar[0]).clen == 6 && (t.ar[0]).ssid == 7 && (t.ar[0]).ch) =
      true := by decide

theorem test_write_read_only :
    nextMeets (step (hostDoes [.writeWord 0x0000C 0xFFFFFFFF])) (fun t => t == State.reset) = true := by decide

theorem test_read_crc :
    nextMeets (step (hostDoes [.readWord 0x00014])) (fun t => t.replies == [.word 0x0000FFFF]) = true := by decide

/-- R33: CR is bit 0 and SRC_CR bit 1. -/
theorem test_read_hdr :
    nextMeets (step { hostDoes [.readWord 0x00028] with hdr := { cr := false, srcCr := true } })
      (fun t => t.replies == [.word 0x00000002]) = true := by decide

theorem test_outside_host_interface :
    isOutside (step (hostDoes [.readWord 0x00002])) = true ∧ isOutside (step (hostDoes [.readWord 0x100FC])) = true ∧
    isOutside (step (hostDoes [.readWord 0x10100])) = false ∧ isOutside (step (hostDoes [.readByte 0x00FFF])) = true ∧
    isOutside (step (hostDoes [.readByte 0x01000])) = false := by decide

/-! ## One step of each command, with the spec's values -/

/-- R230's example. -/
theorem test_softReset :
    nextMeets (exec .softReset { State.reset with crc := 0x1234, nrep := 3 })
      (fun t => t.crc == 0xFFFF && t.nrep == 0 && t.status.word == 0x00000100) = true := by decide

/-- R162's example. -/
theorem test_crcInit :
    nextMeets (exec .crcInit { State.reset with crc := 0x1234 })
      (fun t => t.crc == 0xFFFF && t.fcs == 0x0000 && t.status.word == 0x00001000) = true := by decide

theorem test_crcByte :
    nextMeets (exec .crcByte { State.reset with crc := 0x1234, din := 0x56 })
      (fun t => t.crc == 0x4006 && t.status.word == 0x00001100) = true := by decide

theorem test_crcByte_polynomial :
    nextMeets (exec .crcByte { State.reset with crc := 0x0000, din := 0x80 }) (fun t => t.crc == 0x8408) = true := by
  decide

/-- CRC-4: the second load goes on from the CRC of the first. -/
theorem test_crcBuf_chains :
    nextMeets (exec .crcBuf { withInput [0x35, 0x36, 0x37, 0x38, 0x39] with crc := 0x8B13 })
      (fun t => t.crc == 0x6F91 && t.fcs == 0x906E && t.status.word == 0x00001200) = true := by decide +kernel

/-- CRC-5. -/
theorem test_crcBuf_length :
    nextMeets (exec .crcBuf (withLength 257)) (fun t => t.crc == 0xFFFF && t.status.word == 0x0000120A) = true := by
  decide

/-- F-1. -/
theorem test_fcsCheck_passes :
    nextMeets (exec .fcsCheck (withInput [0x80, 0x74, 0x70])) (fun t => t.status.word == 0x00001300) = true := by decide

/-- F-2. -/
theorem test_fcsCheck_mismatch :
    nextMeets (exec .fcsCheck (withInput [0x80, 0x74, 0x71])) (fun t => t.status.word == 0x00001305) = true := by decide

theorem test_revByte :
    nextMeets (exec .revByte { State.reset with din := 0x12 })
      (fun t => t.dout == 0x48 && t.status.word == 0x00002000) = true := by decide

/-- B-1. -/
theorem test_revBuf :
    nextMeets (exec .revBuf (withInput [0x82, 0x84, 0x03, 0xF0]))
      (fun t => outBytes t == [0x41, 0x21, 0xC0, 0x0F] && t.olen == 4 && t.status.word == 0x00002100) = true := by decide

/-- B-5. -/
theorem test_revBuf_overflow :
    nextMeets (exec .revBuf { withLength 200 with cfg := ⟨256, 128⟩ }) (fun t => t.status.word == 0x0000210B) = true := by
  decide +kernel

/-- H-E4: three stuffed zeros, and padding. -/
theorem test_hdlcEncode :
    nextMeets (exec .hdlcEncode (withInput [0xFF]))
      (fun t => outBytes t == [0x7E, 0xFB, 0xEF, 0xA0, 0x0F, 0xC0] && t.obits == 43 && t.status.word == 0x00003000) =
      true := by decide

/-- H-E12: a stuffed zero after the last body bit. -/
theorem test_hdlcEncode_last_run :
    nextMeets (exec .hdlcEncode (withInput [0x0E]))
      (fun t => outBytes t == [0x7E, 0x70, 0x83, 0xEF, 0x9F, 0x80] && t.obits == 42) = true := by decide

/-- H-D5: the opening flag starts at line bit 3. -/
theorem test_hdlcDecode :
    nextMeets (exec .hdlcDecode (withInput [0xAF, 0xD0, 0x0E, 0x8E, 0x0F, 0xC0]))
      (fun t => outBytes t == [0x01] && t.obits == 43 && t.status.word == 0x00003100) = true := by decide

/-- H-F3: a flipped line bit that is not detected (R206, C9). -/
theorem test_hdlcDecode_undetected_flip :
    nextMeets (exec .hdlcDecode (withInput [0x7E, 0xFB, 0xEF, 0xA0, 0x0F, 0xC4, 0x61, 0x47, 0xE0]))
      (fun t => outBytes t == [0xFF] && t.obits == 43 && t.status.word == 0x00003100) = true := by decide +kernel

/-- The slots of L1-1. -/
def slotsL11 : Vector AddrSlot 10 :=
  (AddrSlot.reset |> Vector.replicate 10)
    |>.set 0 { AddrSlot.reset with call := #v[0x41, 0x42, 0x43, 0x44, 0x45, 0x46], clen := 6, ssid := 7, ch := true }
    |>.set 1 { AddrSlot.reset with call := #v[0x47, 0x48, 0x49, 0x4A, 0x4B, 0x4C], clen := 6, ssid := 1 }

/-- A-E1. -/
def fieldL11 : List Byte := [0x82, 0x84, 0x86, 0x88, 0x8A, 0x8C, 0xEE, 0x8E, 0x90, 0x92, 0x94, 0x96, 0x98, 0x63]

/-- A-E1, with A-E5's and A-E13's stored EXT and unused slot, which are not read. -/
theorem test_addrEncode :
    nextMeets (exec .addrEncode { State.reset with
        ar := (slotsL11.set 0 { slotsL11[0] with ext := true }).set 2 { AddrSlot.reset with clen := 7 } })
      (fun t => outBytes t == fieldL11 && t.olen == 14 && t.hlen == 14 && t.status.word == 0x00004000) = true := by
  decide

/-- A-E11: TooManyRepeaters is checked first. -/
theorem test_addrEncode_order :
    nextMeets (exec .addrEncode { State.reset with
        nrep := 15, ar := State.reset.ar.set 0 { AddrSlot.reset with clen := 7 } })
      (fun t => t.status.word == 0x00004002) = true := by decide

/-- A-D10: the destination's extension bit does not end the walk. -/
theorem test_addrDecode :
    nextMeets (exec .addrDecode (withInput [0x82, 0x84, 0x86, 0x88, 0x8A, 0x8C, 0xEF, 0x8E, 0x90, 0x92, 0x94, 0x96,
        0x98, 0x63]))
      (fun t => t.regWord (.arLo 0) == 0x44434241 && t.regWord (.arHi 0) == 0x0F764645 &&
        t.regWord (.arLo 1) == 0x4A494847 && t.regWord (.arHi 1) == 0x0E164C4B && t.regWord .hdr == 0x1 &&
        t.hlen == 14 && t.status.word == 0x00004100) = true := by decide

/-- A-D7. -/
theorem test_addrDecode_truncated :
    nextMeets (exec .addrDecode (withInput [0x82, 0x84, 0x86, 0x88, 0x8A, 0x8C, 0xEE, 0x8E, 0x90, 0x92, 0x94, 0x96,
        0x98, 0x62])) (fun t => t.status.word == 0x00004103) = true := by decide

/-! ## Witnesses: encoding and the host port -/

theorem witness_DecodeFollowsTheOpcodeMap :
    (∀ i, ((0x00000130 : Word), i) ∉ commandWords) ∧ (∀ i, ((0x00000042 : Word), i) ∉ commandWords) := by
  constructor <;> intro i <;> cases i <;> decide

theorem witness_EncodingAndDecodingAgree : Instr.crcBuf.wellFormed = true ∧ decode 0x00000012 = .ok .crcBuf := by decide

theorem witness_RegisterMapHasOneRegisterPerOffset :
    (0x000, Reg.cmd) ∈ registerMap ∧ (0x08C, Reg.arHi 9) ∈ registerMap := by decide

theorem witness_LoadIsByteWritesInOrder : (1 : Nat) < ([0x31, 0x32] : List Byte).length := by decide

theorem witness_StepRunsTheDecodedCommand :
    (hostDoes [.writeWord 0x00000 0x41]).inputs = .writeWord 0x00000 0x41 :: [] ∧
    decode 0x41 = .ok .addrDecode := by decide

theorem witness_IllegalWordOnlyWritesStatus_reserved :
    (hostDoes [.writeWord 0x00000 0x100]).inputs = .writeWord 0x00000 0x100 :: [] ∧
    256 ≤ (0x100 : Word).toNat := by decide

theorem witness_IllegalWordOnlyWritesStatus_opcode :
    (hostDoes [.writeWord 0x00000 0x42]).inputs = .writeWord 0x00000 0x42 :: [] ∧
    (0x42 : Word).toNat % 256 ∉ [0x01, 0x10, 0x11, 0x12, 0x13, 0x20, 0x21, 0x30, 0x31, 0x40, 0x41] := by decide

theorem witness_IdleBlockStaysAsItIs : State.reset.inputs = [] := rfl

theorem witness_PowerOnAndSoftResetAgree : (hostDoes [.powerOn]).inputs = .powerOn :: [] := rfl

theorem witness_RegisterReadsBackItsWritableBits :
    (Reg.arHi 9 ≠ .cmd ∧ writable (.arHi 9) ≠ 0 ∧
      (hostDoes [.writeWord 0x0008C 5, .readWord 0x0008C]).inputs =
        .writeWord (Reg.arHi 9).addr 5 :: .readWord (Reg.arHi 9).addr :: []) ∧
    (Reg.status ≠ .cmd ∧ writable .status = 0 ∧
      (hostDoes [.writeWord 0x00004 5, .readWord 0x00004]).inputs =
        .writeWord Reg.status.addr 5 :: .readWord Reg.status.addr :: []) ∧
    (hostDoes [.readWord 0x00000]).inputs = .readWord 0x00000 :: [] := by decide

/-- The first and the last offset of the register map. -/
theorem witness_RegisterWordsShowTheirFields :
    ((0x000, Reg.cmd) ∈ registerMap ∧
      (hostDoes [.readWord 0x00000]).inputs = .readWord (BitVec.ofNat 18 0x000) :: []) ∧
    ((0x08C, Reg.arHi 9) ∈ registerMap ∧
      (hostDoes [.readWord 0x0008C]).inputs = .readWord (BitVec.ofNat 18 0x08C) :: []) := by decide

theorem witness_RegisterWriteLeavesTheRest :
    Reg.crc ≠ .cmd ∧ (hostDoes [.writeWord 0x00014 5]).inputs = .writeWord Reg.crc.addr 5 :: [] ∧
    Reg.ilen ≠ .crc ∧ ¬ (Reg.crc = .crc ∧ Reg.ilen = .fcs) := by decide

theorem witness_ReadsHaveNoSideEffect :
    ((∃ a, Input.readByte 0x200FF = .readWord a) ∨ (∃ a, Input.readByte 0x200FF = .readByte a)) ∧
    (Input.readByte 0x200FF).wellFormed State.reset.cfg = true ∧
    (hostDoes [.readByte 0x200FF, .readByte 0x200FF]).inputs = .readByte 0x200FF :: .readByte 0x200FF :: [] :=
  ⟨.inr ⟨_, rfl⟩, by decide, rfl⟩

theorem witness_BufferByteReadsBack_exists :
    0x01000 ≤ (0x100FF : Addr).toNat ∧
    (hostDoes [.writeByte 0x100FF 7, .readByte 0x100FF]).inputs = .writeByte 0x100FF 7 :: .readByte 0x100FF :: [] ∧
    0x10000 ≤ (0x100FF : Addr).toNat ∧ (0x100FF : Addr).toNat < 0x10000 + State.reset.cfg.ibufBytes := by decide

theorem witness_BufferByteReadsBack_hole :
    0x01000 ≤ (0x20100 : Addr).toNat ∧
    (hostDoes [.writeByte 0x20100 7, .readByte 0x20100]).inputs = .writeByte 0x20100 7 :: .readByte 0x20100 :: [] ∧
    ¬ ((0x10000 ≤ (0x20100 : Addr).toNat ∧ (0x20100 : Addr).toNat < 0x10000 + State.reset.cfg.ibufBytes) ∨
        (0x20000 ≤ (0x20100 : Addr).toNat ∧ (0x20100 : Addr).toNat < 0x20000 + State.reset.cfg.obufBytes)) := by decide

theorem witness_UnassignedOffsetsReadZero :
    (0x00030 : Addr).toNat < 0x01000 ∧ (0x00030 : Addr).toNat % 4 = 0 ∧
    (∀ r : Reg, (0x00030 : Addr).toNat ≠ r.offset) ∧
    (hostDoes [.writeWord 0x00030 7, .readWord 0x00030]).inputs =
      .writeWord 0x00030 7 :: .readWord 0x00030 :: [] := by
  refine ⟨by decide, by decide, fun r => ?_, rfl⟩
  have h : (0x00030 : Addr).toNat = 0x30 := rfl
  rw [h]
  cases r <;> simp only [Reg.offset] <;> omega

theorem witness_HolesReadZeroAsWords :
    0x01000 ≤ (0x10100 : Addr).toNat ∧ (0x10100 : Addr).toNat % 4 = 0 ∧
    ¬ ((0x10000 ≤ (0x10100 : Addr).toNat ∧ (0x10100 : Addr).toNat < 0x10000 + State.reset.cfg.ibufBytes) ∨
        (0x20000 ≤ (0x10100 : Addr).toNat ∧ (0x10100 : Addr).toNat < 0x20000 + State.reset.cfg.obufBytes)) ∧
    (hostDoes [.writeWord 0x10100 7, .readWord 0x10100]).inputs =
      .writeWord 0x10100 7 :: .readWord 0x10100 :: [] := by decide

theorem witness_LegalMovesAlwaysProceed : (hostDoes [.readByte 0x01000]).LegalMove := by
  intro i rest h
  cases h
  decide

theorem witness_StepsTakeTheHostsMovesInOrder :
    ∃ t, step (hostDoes [.readWord 0x00004, .powerOn]) = .next t ∧ t.inputs = [.powerOn] :=
  exists_next (by decide)

/-! ## Witnesses: every command -/

theorem witness_EveryCommandEndsAndRecordsItsOpcode : Instr.hdlcDecode ≠ .softReset ∧ 0x1FFFF < 0x20000 := by decide

theorem witness_FailedCommandsWriteStatusOnly :
    ∃ t, exec .hdlcDecode (withInput [0x00]) = .next t ∧ t.status.code ≠ .ok := exists_next (by decide)

theorem witness_CommandsRaiseOnlyTheirCodes :
    ∃ t, exec .fcsCheck (withInput [0x00]) = .next t ∧ t.status.code = .frameTooShort := exists_next (by decide)

theorem witness_RegisterCommandsFrame :
    (∃ t, exec .crcInit State.reset = .next t) ∧ (∃ t, exec .crcByte State.reset = .next t) ∧
    (∃ t, exec .crcBuf (withInput [0x31]) = .next t) ∧ (∃ t, exec .fcsCheck (withInput [0x00, 0x00]) = .next t) ∧
    (∃ t, exec .revByte State.reset = .next t) ∧ (∃ t, exec .addrDecode (withInput fieldL11) = .next t) :=
  ⟨exec_proceeds _ _, exec_proceeds _ _, exec_proceeds _ _, exec_proceeds _ _, exec_proceeds _ _, exec_proceeds _ _⟩

theorem witness_StoringCommandsFrame :
    State.reset.cfg.wellFormed = true ∧ (withInput [0x01]).cfg.wellFormed = true ∧
    (∃ t, exec .revBuf (withInput [0x01]) = .next t ∧ t.status.code = .ok) ∧
    (∃ t, exec .hdlcEncode (withInput [0x01]) = .next t ∧ t.status.code = .ok) ∧
    (∃ t, exec .hdlcDecode (withInput [0x01]) = .next t ∧ t.status.code ≠ .ok) ∧
    (∃ t, exec .addrEncode State.reset = .next t ∧ t.status.code = .ok) :=
  ⟨by decide, by decide, exists_next (by decide), exists_next (by decide), exists_next (by decide),
    exists_next (by decide)⟩

/-- A state that differs from `withInput [0x01]` in STATUS and in OBUF[0] only. -/
def otherObuf : State :=
  { withInput [0x01] with
    status := { code := .illegalCommand, lastOpcode := 0x99 }
    mem := [(0x10000, 0x01), (0x20000, 0xAA)] }

theorem witness_CommandsReadNeitherStatusNorObuf :
    otherObuf = { withInput [0x01] with status := otherObuf.status, mem := otherObuf.mem } ∧
    (∀ a, a < 0x20000 → otherObuf.byteAt a = (withInput [0x01]).byteAt a) ∧
    (∃ t, exec .hdlcEncode (withInput [0x01]) = .next t) ∧ (∃ t, exec .hdlcEncode otherObuf = .next t) := by
  refine ⟨rfl, fun a ha => ?_, exec_proceeds _ _, exec_proceeds _ _⟩
  have h : a ≠ 0x20000 := by omega
  simp [otherObuf, withInput, State.byteAt, Memory.cellAt, Memory.writeBytes, Memory.write, h]

/-- A state that meets the invariant, with a byte stored, an output and a move to come. -/
def soundState : State :=
  { withInput [0x31] with
    olen := 70, obits := 43, hlen := 70, inputs := [.writeWord 0x00000 0x12] }

theorem witness_StepKeepsTheInvariant : soundState.Inv ∧ ∃ t, step soundState = .next t ∧ t.crc = 0x2F8D :=
  ⟨{  cfg_legal := by decide
      mem_wf := by decide
      mem_within := by
        intro x hx
        simp [soundState, withInput, Memory.writeBytes, Memory.write] at hx
        subst hx
        decide
      olen_fits := by decide
      obits_fits := by decide
      hlen_legal := .inr ⟨8, by decide, by decide⟩ },
    exists_next (by decide)⟩

/-! ## Witnesses: the CRC -/

theorem witness_CrcBufFoldsTheBuffer :
    (InputIs (withInput [0x31]) [0x31] ∧ Readable (withInput [0x31])) ∧
    (∃ d, InputIs (withLength 256) d ∧ Readable (withLength 256)) ∧
    (∃ d, InputIs (withLength 257) d ∧ ¬ Readable (withLength 257)) := by
  refine ⟨⟨inputIs_withInput (by decide), ?_⟩, ⟨_, inputIs_inputBytes _, ?_⟩, ⟨_, inputIs_inputBytes _, ?_⟩⟩ <;>
    unfold Readable <;> decide

theorem witness_CrcBufChainsOverLoads :
    ∃ t v x,
      InputIs (withInput [0x31]) [0x31] ∧ Readable (withInput [0x31]) ∧ exec .crcBuf (withInput [0x31]) = .next t ∧
      InputIs { withInput [0x32] with crc := 0x2F8D } [0x32] ∧ Readable { withInput [0x32] with crc := 0x2F8D } ∧
      (0x2F8D : BitVec 16) = t.crc ∧ exec .crcBuf { withInput [0x32] with crc := 0x2F8D } = .next v ∧
      InputIs (withInput [0x31, 0x32]) ([0x31] ++ [0x32]) ∧ Readable (withInput [0x31, 0x32]) ∧
      (withInput [0x31, 0x32]).crc = (withInput [0x31]).crc ∧
      exec .crcBuf (withInput [0x31, 0x32]) = .next x := by
  obtain ⟨t, ht, hc⟩ := exists_next (o := exec .crcBuf (withInput [0x31]))
    (P := fun t => (0x2F8D : BitVec 16) = t.crc) (by decide)
  obtain ⟨v, hv⟩ := exec_proceeds .crcBuf { withInput [0x32] with crc := 0x2F8D }
  obtain ⟨x, hx⟩ := exec_proceeds .crcBuf (withInput [0x31, 0x32])
  exact ⟨t, v, x, inputIs_withInput (by decide), by unfold Readable; decide, ht,
    inputIs_withInput (d := [0x32]) (by decide), by unfold Readable; decide, hc, hv,
    inputIs_withInput (by decide), by unfold Readable; decide, rfl, hx⟩

theorem witness_CrcInitThenCrcBufLeavesFcs :
    InputIs (withInput [0x80]) [0x80] ∧ Readable (withInput [0x80]) :=
  ⟨inputIs_withInput (by decide), by unfold Readable; decide⟩

theorem witness_FcsCheckVerdict :
    ¬ Readable (withLength 257) ∧ (Readable (withLength 1) ∧ (withLength 1).ilen.toNat < 2) ∧
    (InputIs (withInput [0x00, 0x01]) ([] ++ [0x00, 0x01]) ∧ Readable (withInput [0x00, 0x01]) ∧
      ruleCrc16 [] ≠ bigEndian 0x00 0x01) ∧
    (InputIs (withInput [0x00, 0x00]) ([] ++ [0x00, 0x00]) ∧ Readable (withInput [0x00, 0x00]) ∧
      ruleCrc16 [] = bigEndian 0x00 0x00) ∧
    (InputIs (withInput [0x80, 0x74, 0x70]) ([0x80] ++ [0x74, 0x70]) ∧ ruleCrc16 [0x80] = bigEndian 0x74 0x70) := by
  refine ⟨?_, ⟨?_, by decide⟩, ⟨inputIs_withInput (by decide), ?_, by decide⟩,
    ⟨inputIs_withInput (by decide), ?_, by decide⟩, ⟨inputIs_withInput (by decide), by decide⟩⟩ <;>
    unfold Readable <;> decide

theorem witness_FcsGeneratorAndVerifierAgree :
    ([0x80] : List Byte).length + 2 ≤ (withInput [0x80, 0x74, 0x70]).cfg.ibufBytes ∧
    InputIs (withInput [0x80, 0x74, 0x70])
      ([0x80] ++ [BitVec.ofNat 8 ((ruleCrc16 [0x80]).toNat / 256), BitVec.ofNat 8 ((ruleCrc16 [0x80]).toNat % 256)]) := by
  have h : [BitVec.ofNat 8 ((ruleCrc16 [0x80]).toNat / 256), BitVec.ofNat 8 ((ruleCrc16 [0x80]).toNat % 256)] =
      ([0x74, 0x70] : List Byte) := by decide
  rw [h]
  exact ⟨by decide, inputIs_withInput (d := [0x80, 0x74, 0x70]) (by decide)⟩

/-- Flips of the first and of the last bit of F-1. -/
theorem witness_FcsCheckDetectsSingleBitErrors :
    let sent : List Byte :=
      [0x80] ++ [BitVec.ofNat 8 ((ruleCrc16 [0x80]).toNat / 256), BitVec.ofNat 8 ((ruleCrc16 [0x80]).toNat % 256)]
    (0 < 8 * (1 + 2) ∧ bitsMSB [0x00, 0x74, 0x70] = flipBit (bitsMSB sent) 0 ∧
      InputIs (withInput [0x00, 0x74, 0x70]) [0x00, 0x74, 0x70]) ∧
    (23 < 8 * (1 + 2) ∧ bitsMSB [0x80, 0x74, 0x71] = flipBit (bitsMSB sent) 23 ∧
      InputIs (withInput [0x80, 0x74, 0x71]) [0x80, 0x74, 0x71]) :=
  ⟨⟨by decide, by decide, inputIs_withInput (by decide)⟩, ⟨by decide, by decide, inputIs_withInput (by decide)⟩⟩

/-! ## Witnesses: bit reversal -/

theorem witness_RevBufReversesTheBuffer :
    ¬ Readable (withLength 257) ∧
    (Readable { withLength 71 with cfg := ⟨256, 70⟩ } ∧
      ({ withLength 71 with cfg := ⟨256, 70⟩ } : State).cfg.obufBytes < 71) ∧
    (Readable { withLength 70 with cfg := ⟨256, 70⟩ } ∧
      ({ withLength 70 with cfg := ⟨256, 70⟩ } : State).ilen.toNat ≤ 70) := by
  unfold Readable; decide

theorem witness_RevBufUndoesItself :
    Readable (withInput [0x82, 0x03]) ∧ (withInput [0x82, 0x03]).ilen.toNat ≤ (withInput [0x82, 0x03]).cfg.obufBytes ∧
    ∃ t, exec .revBuf (withInput [0x82, 0x03]) = .next t ∧ (withInput [0x41, 0xC0]).cfg = t.cfg ∧
      (withInput [0x41, 0xC0]).ilen.toNat = t.olen.toNat ∧
      ∀ j, j < t.olen.toNat → (withInput [0x41, 0xC0]).ibuf j = t.obuf j :=
  ⟨by unfold Readable; decide, by decide, exists_next (by decide)⟩

/-! ## Witnesses: HDLC framing -/

theorem witness_SerializingAndPackingBits :
    0 < ([0x80] : List Byte).length ∧ 7 < 8 ∧ 1 < (9 + 7) / 8 ∧ ([true, false, true] : Bits).length = 3 := by decide

/-- H-E1, the shortest frame, with its closing flag at 24. -/
theorem witness_ClosingFlagIsTheFirstAfterTheOpening :
    ∃ t, exec .hdlcEncode (withInput []) = .next t ∧ t.status.code = .ok ∧ 8 + 6 ≤ (obufLine t).length - 8 ∧
      ((obufLine t).drop 24).take 8 = [false, true, true, true, true, true, true, false] := exists_next (by decide)

theorem witness_HdlcEncodeWritesTheFrame :
    (∃ d, InputIs (withLength 257) d ∧ ¬ Readable (withLength 257)) ∧
    (InputIs (withInput [0xFF]) [0xFF] ∧ Readable (withInput [0xFF]) ∧
      ((ruleLine [0xFF]).length + 7) / 8 ≤ (withInput [0xFF]).cfg.obufBytes) :=
  ⟨⟨_, inputIs_inputBytes _, by unfold Readable; decide⟩,
    ⟨inputIs_withInput (by decide), by unfold Readable; decide, by decide⟩⟩

/-- The rule's stuffing loop drops no bit. -/
theorem le_length_ruleStuff (s : Bits) : s.length ≤ (ruleStuff s).length := by
  suffices h : ∀ (s : Bits) (out : Bits) (ones : Nat),
      out.length + s.length ≤ (s.foldl
        (fun (st : Bits × Nat) b =>
          let out := st.1 ++ [b]
          if b then (if st.2 + 1 = 5 then (out ++ [false], 0) else (out, st.2 + 1)) else (out, 0))
        (out, ones)).1.length by
    simpa [ruleStuff] using h s [] 0
  intro s
  induction s with
  | nil => intro out ones; simp
  | cons b s ih =>
    intro out ones
    cases b with
    | false =>
      have := ih (out ++ [false]) 0
      simp only [List.foldl_cons, Bool.false_eq_true, if_false, List.length_cons]
      simp only [List.length_append, List.length_cons, List.length_nil] at this
      omega
    | true =>
      by_cases h5 : ones + 1 = 5
      · have := ih (out ++ [true] ++ [false]) 0
        simp only [List.foldl_cons, h5, if_true, List.length_cons]
        simp only [List.length_append, List.length_cons, List.length_nil] at this
        omega
      · have := ih (out ++ [true]) (ones + 1)
        simp only [List.foldl_cons, h5, if_true, if_false, List.length_cons]
        simp only [List.length_append, List.length_cons, List.length_nil] at this
        omega

/-- The least payload whose frame cannot fit in the least legal OBUF, even with nothing stuffed: 32 + 8n bits. -/
theorem witness_HdlcEncodeWritesTheFrame_overflow :
    let s : State := { withInput (List.replicate 67 0x00) with cfg := ⟨256, 70⟩ }
    InputIs s (List.replicate 67 0x00) ∧ Readable s ∧
      s.cfg.obufBytes < ((ruleLine (List.replicate 67 0x00)).length + 7) / 8 := by
  refine ⟨inputIs_withInput (d := List.replicate 67 0x00) (by decide), by unfold Readable; decide, ?_⟩
  have h1 := le_length_ruleStuff (bitsMSB (ruleBody (List.replicate 67 0x00)))
  rw [length_bitsMSB] at h1
  have h2 : (ruleBody (List.replicate 67 0x00)).length = 69 := by simp [ruleBody]
  simp only [ruleLine, List.length_append, List.length_cons, List.length_nil]
  omega

theorem witness_EncodedFrameSizeBounds :
    (withInput [0xFF]).cfg.wellFormed = true ∧
    (∃ t, exec .hdlcEncode (withInput [0xFF]) = .next t ∧ t.status.code = .ok) ∧
    ({ withLength 54 with cfg := ⟨256, 70⟩ } : State).cfg.wellFormed = true ∧
    (∃ t, exec .hdlcEncode { withLength 54 with cfg := ⟨256, 70⟩ } = .next t) ∧
    (16 + 8 * ((withLength 54).ilen.toNat + 2) + 8 * ((withLength 54).ilen.toNat + 2) / 5 + 7) / 8 ≤ 70 :=
  ⟨by decide, exists_next (by decide), by decide, exec_proceeds _ _, by decide⟩

theorem witness_HdlcDecode_length : ∃ d, InputIs (withLength 257) d ∧ ¬ Readable (withLength 257) :=
  ⟨_, inputIs_inputBytes _, by unfold Readable; decide⟩

/-- H-D8. -/
theorem witness_HdlcDecode_no_opening_flag :
    InputIs (withInput []) [] ∧ Readable (withInput []) ∧ ∀ p, ¬ FlagAt (bitsMSB []) p :=
  ⟨inputIs_withInput (by decide), by unfold Readable; decide, fun p => by simp [FlagAt]⟩

/-- H-D14. -/
theorem witness_HdlcDecode_violation :
    InputIs (withInput [0x7E, 0xFF]) [0x7E, 0xFF] ∧ Readable (withInput [0x7E, 0xFF]) ∧
    FirstFlag (bitsMSB [0x7E, 0xFF]) 0 ∧ ruleScan (bitsMSB [0x7E, 0xFF]) 17 8 0 [] = .violation 13 :=
  ⟨inputIs_withInput (by decide), by unfold Readable; decide, by unfold FirstFlag FlagAt; decide, by decide⟩

/-- H-D10. -/
theorem witness_HdlcDecode_no_closing_flag :
    InputIs (withInput [0x7E]) [0x7E] ∧ Readable (withInput [0x7E]) ∧
    FirstFlag (bitsMSB [0x7E]) 0 ∧ ruleScan (bitsMSB [0x7E]) 9 8 0 [] = .noClose :=
  ⟨inputIs_withInput (by decide), by unfold Readable; decide, by unfold FirstFlag FlagAt; decide, by decide⟩

/-- H-D17. -/
theorem witness_HdlcDecode_non_octet :
    InputIs (withInput [0x7E, 0x01, 0xF8]) [0x7E, 0x01, 0xF8] ∧ Readable (withInput [0x7E, 0x01, 0xF8]) ∧
    FirstFlag (bitsMSB [0x7E, 0x01, 0xF8]) 0 ∧
    ruleScan (bitsMSB [0x7E, 0x01, 0xF8]) 25 8 0 [] = .close (List.replicate 6 false) 14 :=
  ⟨inputIs_withInput (by decide), by unfold Readable; decide, by unfold FirstFlag FlagAt; decide, by decide⟩

/-- H-D13: the longest body that is too short. -/
theorem witness_HdlcDecode_too_short :
    InputIs (withInput [0x7E, 0x00, 0x7E]) [0x7E, 0x00, 0x7E] ∧ Readable (withInput [0x7E, 0x00, 0x7E]) ∧
    FirstFlag (bitsMSB [0x7E, 0x00, 0x7E]) 0 ∧
    ruleScan (bitsMSB [0x7E, 0x00, 0x7E]) 25 8 0 [] = .close (List.replicate 8 false) 16 :=
  ⟨inputIs_withInput (by decide), by unfold Readable; decide, by unfold FirstFlag FlagAt; decide, by decide⟩

/-- H-D19. -/
theorem witness_HdlcDecode_fcs_mismatch :
    InputIs (withInput [0x7E, 0x80, 0x74, 0x71, 0x7E]) [0x7E, 0x80, 0x74, 0x71, 0x7E] ∧
    Readable (withInput [0x7E, 0x80, 0x74, 0x71, 0x7E]) ∧ FirstFlag (bitsMSB [0x7E, 0x80, 0x74, 0x71, 0x7E]) 0 ∧
    ruleScan (bitsMSB [0x7E, 0x80, 0x74, 0x71, 0x7E]) 41 8 0 [] = .close (bitsMSB ([0x80] ++ [0x74, 0x71])) 32 ∧
    ruleCrc16 [0x80] ≠ bigEndian 0x74 0x71 :=
  ⟨inputIs_withInput (by decide), by unfold Readable; decide, by unfold FirstFlag FlagAt; decide, by decide +kernel,
    by decide⟩

/-- H-D1: the shortest frame that decodes, with its first flag at 0; and H-D5, with its first flag at 3. -/
theorem witness_HdlcDecode_ok :
    (InputIs (withInput [0x7E, 0x00, 0x00, 0x7E]) [0x7E, 0x00, 0x00, 0x7E] ∧
      Readable (withInput [0x7E, 0x00, 0x00, 0x7E]) ∧ FirstFlag (bitsMSB [0x7E, 0x00, 0x00, 0x7E]) 0 ∧
      ruleScan (bitsMSB [0x7E, 0x00, 0x00, 0x7E]) 33 8 0 [] = .close (bitsMSB ([] ++ [0x00, 0x00])) 24 ∧
      ruleCrc16 [] = bigEndian 0x00 0x00 ∧ ([] : List Byte).length ≤ State.reset.cfg.obufBytes) ∧
    FirstFlag (bitsMSB [0xAF, 0xD0, 0x0E, 0x8E, 0x0F, 0xC0]) 3 ∧
    ruleScan (bitsMSB [0xAF, 0xD0, 0x0E, 0x8E, 0x0F, 0xC0]) 49 11 0 [] = .close (bitsMSB ([0x80] ++ [0x74, 0x70])) 35 ∧
    ruleCrc16 [0x80] = bigEndian 0x74 0x70 :=
  ⟨⟨inputIs_withInput (by decide), by unfold Readable; decide, by unfold FirstFlag FlagAt; decide, by decide +kernel,
    by decide, by decide⟩, by unfold FirstFlag FlagAt; decide, by decide +kernel, by decide⟩

/-- H-D2 into an OBUF of no bytes. The statement holds for every capacity; this one keeps the witness small. -/
theorem witness_HdlcDecode_overflow :
    let d : List Byte := [0x7E, 0x80, 0x74, 0x70, 0x7E]
    let s : State := { withInput d with cfg := ⟨256, 0⟩ }
    InputIs s d ∧ Readable s ∧ FirstFlag (bitsMSB d) 0 ∧
    ruleScan (bitsMSB d) ((bitsMSB d).length + 1) 8 0 [] = .close (bitsMSB ([0x80] ++ [0x74, 0x70])) 32 ∧
    ruleCrc16 [0x80] = bigEndian 0x74 0x70 ∧ s.cfg.obufBytes < ([0x80] : List Byte).length :=
  ⟨inputIs_withInput (d := [0x7E, 0x80, 0x74, 0x70, 0x7E]) (by decide), by unfold Readable; decide,
    by unfold FirstFlag FlagAt; decide, by decide +kernel, by decide, by decide⟩

/-- H-E4 and its copy in IBUF. -/
theorem witness_DecodeUndoesEncode :
    let s := withInput [0xFF]
    let u := withInput [0x7E, 0xFB, 0xEF, 0xA0, 0x0F, 0xC0]
    s.cfg.wellFormed = true ∧ InputIs s [0xFF] ∧ Readable s ∧
    ∃ t, exec .hdlcEncode s = .next t ∧ t.status.code = .ok ∧ u.cfg = s.cfg ∧ u.ilen = t.olen ∧
      (∀ j, j < t.olen.toNat → u.ibuf j = t.obuf j) ∧ u.ilen.toNat ≤ u.cfg.ibufBytes :=
  ⟨by decide, inputIs_withInput (by decide), by unfold Readable; decide, exists_next (by decide)⟩

/-- The first and the last body bit of H-E2. -/
theorem witness_BodyBitErrorsAreFcsMismatches :
    let flipped (p : Nat) := packMSB (flagBits ++ stuff (flipBit (bitsMSB (ruleBody [0x01])) p) ++ flagBits)
    (0 < 8 * (1 + 2) ∧ Readable (withInput (flipped 0)) ∧ InputIs (withInput (flipped 0)) (flipped 0)) ∧
    (23 < 8 * (1 + 2) ∧ Readable (withInput (flipped 23)) ∧ InputIs (withInput (flipped 23)) (flipped 23)) :=
  ⟨⟨by decide, by unfold Readable; decide +kernel, inputIs_withInput (by decide +kernel)⟩,
    ⟨by decide, by unfold Readable; decide +kernel, inputIs_withInput (by decide +kernel)⟩⟩

/-! ## Witnesses: the address field -/

theorem witness_AddrEncodeWritesTheField_repeaters :
    ({ State.reset with nrep := 9 } : State).cfg.wellFormed = true ∧
    8 < ({ State.reset with nrep := 9 } : State).nrep.toNat := by decide

/-- The last slot used, with NREP 0 and with NREP 8. -/
theorem witness_AddrEncodeWritesTheField_length :
    (let s : State := { State.reset with ar := State.reset.ar.set 1 { AddrSlot.reset with clen := 7 } };
      s.nrep.toNat ≤ 8 ∧ (1 : Fin 10).val ≤ 1 + s.nrep.toNat ∧ (s.ar[(1 : Fin 10)]).clen = 7) ∧
    (let s : State := { State.reset with nrep := 8, ar := State.reset.ar.set 9 { AddrSlot.reset with clen := 7 } };
      s.nrep.toNat ≤ 8 ∧ (9 : Fin 10).val ≤ 1 + s.nrep.toNat ∧ (s.ar[(9 : Fin 10)]).clen = 7) := by decide

theorem witness_AddrEncodeWritesTheField_ok :
    (State.reset.nrep.toNat ≤ 8 ∧ ∀ k : Fin 10, k.val ≤ 1 + State.reset.nrep.toNat → (State.reset.ar[k]).clen ≠ 7) ∧
    (let s : State := { State.reset with nrep := 8 };
      s.nrep.toNat ≤ 8 ∧ ∀ k : Fin 10, k.val ≤ 1 + s.nrep.toNat → (s.ar[k]).clen ≠ 7) := by decide

theorem witness_ExtensionBitMarksTheLastGroup :
    ∃ t, exec .addrEncode { State.reset with ar := slotsL11 } = .next t ∧ t.status.code = .ok ∧
      1 ≤ 1 + ({ State.reset with ar := slotsL11 } : State).nrep.toNat := exists_next (by decide)

/-- "A B", with its inner space: CLEN 3, character 2 the last and character 3 past it (A-D11). -/
theorem witness_GroupDecodesByItsRule :
    (decodeAddress #v[0x83, 0x40, 0x84, 0x40, 0x40, 0x40, 0x60]).clen = 3 ∧
    (decodeAddress #v[0x40, 0x40, 0x40, 0x40, 0x40, 0x40, 0x60]).clen = 0 ∧
    (decodeAddress #v[0x82, 0x84, 0x86, 0x88, 0x8A, 0x8C, 0xEE]).clen = 6 := by decide

theorem witness_AddrDecode_short :
    ¬ Readable (withLength 257) ∧ Readable (withLength 13) ∧ (withLength 13).ilen.toNat < 14 := by
  unfold Readable; decide

/-- A-D7 (no repeater read), and 69 bytes without an extension bit (A-D5). -/
theorem witness_AddrDecode_truncated :
    (let s := withInput (List.replicate 14 0x40);
      Readable s ∧ 14 + 7 * 0 ≤ s.ilen.toNat ∧ s.ilen.toNat < 14 + 7 * (0 + 1) ∧
      ∀ k, k < 2 → 1 ≤ k → groupExt s k = false) ∧
    (let s := withInput (List.replicate 69 0x40);
      Readable s ∧ 14 + 7 * 7 ≤ s.ilen.toNat ∧ s.ilen.toNat < 14 + 7 * (7 + 1) ∧
      ∀ k, k < 9 → 1 ≤ k → groupExt s k = false) := by
  unfold Readable; decide +kernel

/-- A-D4. -/
theorem witness_AddrDecode_too_many :
    let s := withInput (List.replicate 70 0x40)
    Readable s ∧ 70 ≤ s.ilen.toNat ∧ ∀ k, k < 10 → 1 ≤ k → groupExt s k = false := by
  unfold Readable; decide +kernel

/-- No repeater (A-D1) and eight (A-D3). -/
theorem witness_AddrDecode_ok :
    (let s := withInput fieldL11;
      Readable s ∧ 14 + 7 * 0 ≤ s.ilen.toNat ∧ groupExt s (1 + 0) = true) ∧
    (let s := withInput (List.replicate 69 0x40 ++ [0x71]);
      Readable s ∧ 14 + 7 * 8 ≤ s.ilen.toNat ∧ (∀ k, k < 9 → 1 ≤ k → groupExt s k = false) ∧
      groupExt s (1 + 8) = true) := by
  unfold Readable; decide +kernel

theorem witness_AddressFieldRoundTrip :
    let s : State := { State.reset with ar := slotsL11 }
    let u := withInput fieldL11
    s.cfg.wellFormed = true ∧ s.nrep.toNat ≤ 8 ∧ (∀ k : Fin 10, k.val ≤ 1 + s.nrep.toNat → ValidSlot s.ar[k]) ∧
    ∃ t, exec .addrEncode s = .next t ∧ u.cfg = s.cfg ∧ u.ilen.toNat = 14 + 7 * s.nrep.toNat ∧
      ∀ j, j < 14 + 7 * s.nrep.toNat → u.ibuf j = t.obuf j :=
  ⟨by decide, by decide, by unfold ValidSlot; decide, exists_next (by decide)⟩

end Sys2Proof.Tests
end

