-- ==== Sys2Proof/Proofs/Invariant.lean ====
section
/-! PROOF. Every step keeps the invariant of the block. First the updates of the state that keep it, then each command
through its inversion lemma in Laws/Commands.lean, then the host's moves, and the step last. -/

namespace Sys2Proof.Machine

open Sys2Proof

/-! ## Updates that keep the invariant -/

/-- The invariant speaks of five fields only. -/
theorem State.Inv.congr {s t : State} (h : s.Inv) (hcfg : t.cfg = s.cfg) (hmem : t.mem = s.mem)
    (holen : t.olen = s.olen) (hobits : t.obits = s.obits) (hhlen : t.hlen = s.hlen) : t.Inv where
  cfg_legal := hcfg ▸ h.cfg_legal
  mem_wf := hmem ▸ h.mem_wf
  mem_within := hcfg ▸ hmem ▸ h.mem_within
  olen_fits := hcfg ▸ holen ▸ h.olen_fits
  obits_fits := hobits ▸ h.obits_fits
  hlen_legal := hhlen ▸ h.hlen_legal

theorem State.Inv.complete {s : State} (h : s.Inv) (op : BitVec 8) : (complete op s).Inv :=
  h.congr rfl rfl rfl rfl rfl

theorem State.Inv.raiseStatus {s : State} (h : s.Inv) (op : BitVec 8) (c : StatusCode) : (raiseStatus op c s).Inv :=
  h.congr rfl rfl rfl rfl rfl

theorem legalHlen_zero : legalHlen 0 := .inl rfl

/-- A field of at most eight repeaters has at most 70 bytes, so its length fits in the 8 bits of HLEN (R34, R103). -/
theorem legalHlen_fieldLength {r : Nat} (hr : r ≤ 8) : legalHlen (BitVec.ofNat 8 (fieldLength r)) :=
  .inr ⟨r, hr, by rw [BitVec.toNat_ofNat, fieldLength]; omega⟩

theorem State.Inv.setHlen {s : State} (h : s.Inv) {hlen : BitVec 8} (hl : legalHlen hlen) :
    State.Inv { s with hlen := hlen } :=
  { h with hlen_legal := hl }

theorem State.Inv.setObits {s : State} (h : s.Inv) {n : Nat} (hn : n ≤ 8 * 65535) :
    State.Inv { s with obits := BitVec.ofNat 32 n } :=
  { h with obits_fits := (BitVec.toNat_ofNat n 32).symm ▸ (Nat.mod_le _ _).trans hn }

theorem State.Inv.writeByte {s : State} (h : s.Inv) (a : Addr) (b : Byte) : (s.writeByte a b).Inv := by
  unfold State.writeByte
  split
  · next ha =>
    exact { h with
      mem_wf := Memory.wf_write h.mem_wf _ b
      mem_within := Memory.within_write h.mem_within ha b }
  · exact h

/-- Storing an output that fits in OBUF, with OLEN set to its length (R26, R42). -/
theorem State.Inv.storeOutput {s : State} (h : s.Inv) {out : List Byte} (hfit : out.length ≤ s.cfg.obufBytes) :
    State.Inv { storeObuf out s with olen := BitVec.ofNat 16 out.length } :=
  { h with
    mem_wf := Memory.wf_writeBytes h.mem_wf _ _
    mem_within := Memory.within_writeBytes h.mem_within 0 out (by omega)
    olen_fits := (BitVec.toNat_ofNat out.length 16).symm ▸ (Nat.mod_le _ _).trans hfit }

/-- SOFT_RESET and power-on zero the three bounded registers. -/
theorem State.Inv.of_zeroed {s t : State} (h : s.Inv) (hcfg : t.cfg = s.cfg) (hmem : t.mem = s.mem ∨ t.mem = [])
    (holen : t.olen = 0) (hobits : t.obits = 0) (hhlen : t.hlen = 0) : t.Inv where
  cfg_legal := hcfg ▸ h.cfg_legal
  mem_wf := by rcases hmem with hm | hm <;> rw [hm]; exacts [h.mem_wf, .nil]
  mem_within := by rcases hmem with hm | hm <;> rw [hm, hcfg]; exacts [h.mem_within, by simp [Memory.within]]
  olen_fits := by simp [holen]
  obits_fits := by simp [hobits]
  hlen_legal := hhlen ▸ legalHlen_zero

/-! ## The commands -/

theorem execSoftReset_keeps_inv {s t : State} (h : s.Inv) (ht : execSoftReset s = .next t) : t.Inv := by
  rw [execSoftReset_next ht]
  exact h.of_zeroed rfl (.inl rfl) rfl rfl rfl

theorem execCrcInit_keeps_inv {s t : State} (h : s.Inv) (ht : execCrcInit s = .next t) : t.Inv := by
  rw [execCrcInit_next ht]
  exact h.congr rfl rfl rfl rfl rfl

theorem execCrcByte_keeps_inv {s t : State} (h : s.Inv) (ht : execCrcByte s = .next t) : t.Inv := by
  rw [execCrcByte_next ht]
  exact h.congr rfl rfl rfl rfl rfl

theorem execCrcBuf_keeps_inv {s t : State} (h : s.Inv) (ht : execCrcBuf s = .next t) : t.Inv := by
  obtain ⟨-, rfl⟩ | ⟨-, rfl⟩ := execCrcBuf_next ht
  · exact h.raiseStatus _ _
  · exact h.congr rfl rfl rfl rfl rfl

theorem execFcsCheck_keeps_inv {s t : State} (h : s.Inv) (ht : execFcsCheck s = .next t) : t.Inv := by
  obtain ⟨c, -, rfl⟩ | rfl := execFcsCheck_next ht
  · exact h.raiseStatus _ c
  · exact h.complete _

theorem execRevByte_keeps_inv {s t : State} (h : s.Inv) (ht : execRevByte s = .next t) : t.Inv := by
  rw [execRevByte_next ht]
  exact h.congr rfl rfl rfl rfl rfl

theorem execRevBuf_keeps_inv {s t : State} (h : s.Inv) (ht : execRevBuf s = .next t) : t.Inv := by
  obtain ⟨c, -, rfl⟩ | ⟨out, -, hfit, rfl⟩ := execRevBuf_next ht
  · exact h.raiseStatus _ c
  · exact (h.storeOutput hfit).complete _

/-- OBITS is in range because the packed line fits in OBUF. -/
theorem execHdlcEncode_keeps_inv {s t : State} (h : s.Inv) (ht : execHdlcEncode s = .next t) : t.Inv := by
  obtain ⟨c, -, rfl⟩ | ⟨line, -, -, hfit, rfl⟩ := execHdlcEncode_next ht
  · exact h.raiseStatus _ c
  · obtain ⟨-, -, -, hcap⟩ := (config_wellFormed_iff _).mp h.cfg_legal
    have hbits : line.length ≤ 8 * 65535 := by unfold octets at hfit; omega
    rw [← length_packMSB] at hfit ⊢
    exact ((h.storeOutput hfit).setObits hbits).complete _

/-- OBITS is in range because a frame uses no more bits than IBUF holds. -/
theorem execHdlcDecode_keeps_inv {s t : State} (h : s.Inv) (ht : execHdlcDecode s = .next t) : t.Inv := by
  obtain ⟨c, -, rfl⟩ | ⟨p, used, hilen, hframe, hfit, rfl⟩ := execHdlcDecode_next ht
  · exact h.raiseStatus _ c
  · obtain ⟨-, hcap, -, -⟩ := (config_wellFormed_iff _).mp h.cfg_legal
    have hbits : used ≤ 8 * 65535 := by
      have := deframe_used_le hframe
      rw [length_bitsMSB, length_inputBytes] at this
      omega
    rw [← List.length_map rev8] at hfit ⊢
    exact ((h.storeOutput hfit).setObits hbits).complete _

theorem execAddrEncode_keeps_inv {s t : State} (h : s.Inv) (ht : execAddrEncode s = .next t) : t.Inv := by
  obtain ⟨c, -, rfl⟩ | ⟨field, hr, -, hlen, hfit, rfl⟩ := execAddrEncode_next ht
  · exact h.raiseStatus _ c
  · exact ((h.storeOutput hfit).setHlen (hlen ▸ legalHlen_fieldLength hr)).complete _

theorem execAddrDecode_keeps_inv {s t : State} (h : s.Inv) (ht : execAddrDecode s = .next t) : t.Inv := by
  obtain ⟨c, -, rfl⟩ | ⟨f, hr, -, rfl⟩ := execAddrDecode_next ht
  · exact h.raiseStatus _ c
  · exact (h.setHlen (legalHlen_fieldLength hr)).congr rfl rfl rfl rfl rfl

/-- Every command keeps the invariant. -/
theorem exec_keeps_inv {i : Instr} {s t : State} (h : s.Inv) (ht : exec i s = .next t) : t.Inv := by
  cases i with
  | softReset => exact execSoftReset_keeps_inv h ht
  | crcInit => exact execCrcInit_keeps_inv h ht
  | crcByte => exact execCrcByte_keeps_inv h ht
  | crcBuf => exact execCrcBuf_keeps_inv h ht
  | fcsCheck => exact execFcsCheck_keeps_inv h ht
  | revByte => exact execRevByte_keeps_inv h ht
  | revBuf => exact execRevBuf_keeps_inv h ht
  | hdlcEncode => exact execHdlcEncode_keeps_inv h ht
  | hdlcDecode => exact execHdlcDecode_keeps_inv h ht
  | addrEncode => exact execAddrEncode_keeps_inv h ht
  | addrDecode => exact execAddrDecode_keeps_inv h ht

/-- A command word keeps the invariant, decodable or not: an illegal one writes STATUS only (R231). -/
theorem runWord_keeps_inv {w : Word} {s t : State} (h : s.Inv) (ht : runWord w s = .next t) : t.Inv := by
  unfold runWord at ht
  split at ht
  · exact exec_keeps_inv h ht
  · cases ht
    exact h.raiseStatus _ _

/-! ## The host's moves and the step -/

theorem State.Inv.setInputs {s : State} (h : s.Inv) (is : List Input) : State.Inv { s with inputs := is } :=
  h.congr rfl rfl rfl rfl rfl

theorem State.Inv.reply {s : State} (h : s.Inv) (r : Reply) : (s.reply r).Inv :=
  h.congr rfl rfl rfl rfl rfl

/-- A word write reaches none of the fields of the invariant: OLEN, OBITS and HLEN are read-only (R51). -/
theorem State.Inv.writeWord {s : State} (h : s.Inv) (a : Addr) (w : Word) : (s.writeWord a w).Inv := by
  obtain ⟨r, -, hw⟩ | ⟨-, hw⟩ := writeWord_cases s a w <;> rw [hw]
  · obtain ⟨-, holen, hobits, -, -, hhlen, hmem, hcfg, -⟩ := setReg_frame s r w
    exact h.congr hcfg hmem holen hobits hhlen
  · exact h

theorem applyInput_keeps_inv {s : State} (h : s.Inv) (i : Input) : (applyInput i s).Inv := by
  cases i with
  | writeWord a w => exact h.writeWord a w
  | readWord a => exact h.reply _
  | writeByte a b => exact h.writeByte a b
  | readByte a => exact h.reply _
  | powerOn => exact h.of_zeroed rfl (.inr rfl) rfl rfl rfl

theorem hostStep_keeps_inv {s t : State} (h : s.Inv) (ht : hostStep s = .next t) : t.Inv := by
  unfold hostStep at ht
  split at ht
  · cases ht
    exact h
  · split at ht
    · cases ht
      exact applyInput_keeps_inv (h.setInputs _) _
    · cases ht

/-- The state in which a fetched command runs differs from the state before in the pending moves only. -/
theorem fetchCommand_state {s t : State} {w : Word} (hf : fetchCommand s = some (w, t)) :
    ∃ rest, t = { s with inputs := rest } := by
  unfold fetchCommand at hf
  split at hf
  · split at hf
    · cases hf
      exact ⟨_, rfl⟩
    · cases hf
  · cases hf

/-- Settles O29: a step is a command word run in the state without its move, or a move of the host, and both keep the
invariant. -/
theorem stepKeepsTheInvariant : Obligations.StepKeepsTheInvariant := by
  intro s t h ht
  unfold step at ht
  split at ht
  · next w u hf =>
    obtain ⟨rest, rfl⟩ := fetchCommand_state hf
    exact runWord_keeps_inv (h.setInputs rest) ht
  · exact hostStep_keeps_inv h ht

end Sys2Proof.Machine
end

