-- ==== Sys2Proof/Proofs/State.lean ====
section
/-! PROOF. The register words a host reads and the frame of every command. Each command is a `finish` (R252), so a
property of its next state is shown at its two ends, the error raised and the outputs committed. -/

namespace Sys2Proof.Machine

open Sys2Proof Sys2Proof.Claims

/-! ## Register words by the weights of their fields -/

/-- FCS is the complement of CRC (R29). -/
theorem fcs_eq_not (s : State) : s.fcs = ~~~s.crc := BitVec.xor_allOnes

/-- The code numbers are those of R250. -/
theorem toNat_number (c : StatusCode) : c.number.toNat = ruleCode c := by cases c <;> rfl

/-- A field at bit `k` does not reach the bit above it. -/
theorem toNat_mul_two_pow_lt {v : Nat} (f : BitVec v) (k : Nat) : f.toNat * 2 ^ k < 2 ^ (v + k) :=
  calc f.toNat * 2 ^ k < 2 ^ v * 2 ^ k := by gcongr; exact f.isLt
    _ = 2 ^ (v + k) := (pow_add 2 v k).symm

/-- The word has the value `n`, and only zeros below bit `k`: a register word built from its high fields down to the
field at bit `k`. -/
structure FilledDownTo (w : Word) (n k : Nat) : Prop where
  value : w.toNat = n
  low_zero : 2 ^ k ∣ n
  in_word : k ≤ 32

theorem filledDownTo_field {v : Nat} (f : BitVec v) (k : Nat) (hv : v + k ≤ 32) :
    FilledDownTo (f.setWidth 32 <<< k) (f.toNat * 2 ^ k) k where
  value := by
    have hf : f.toNat * 2 ^ k < 2 ^ 32 := (toNat_mul_two_pow_lt f k).trans_le (Nat.pow_le_pow_right two_pos hv)
    rw [BitVec.toNat_shiftLeft, BitVec.toNat_setWidth_of_le (by omega), Nat.shiftLeft_eq, Nat.mod_eq_of_lt hf]
  low_zero := Nat.dvd_mul_left _ _
  in_word := by omega

theorem filledDownTo_bitAt (b : Bool) (k : Nat) (hk : k < 32) : FilledDownTo (bitAt b k) (b.toNat * 2 ^ k) k := by
  rw [← BitVec.toNat_ofBool]
  exact filledDownTo_field (BitVec.ofBool b) k (by omega)

section Layout

variable {w : Word} {n j : Nat} (h : FilledDownTo w n j)
include h

/-- Lower bits put beside higher ones add their value, because none of them reaches up to bit `j`. -/
theorem FilledDownTo.toNat_or {x : Word} (hx : x.toNat < 2 ^ j) : (w ||| x).toNat = n + x.toNat := by
  obtain ⟨q, rfl⟩ := h.low_zero
  rw [BitVec.toNat_or, h.value, Nat.two_pow_add_eq_or_of_lt hx]

/-- The next field down. -/
theorem FilledDownTo.orField {v : Nat} (f : BitVec v) (k : Nat) (hk : v + k ≤ j) :
    FilledDownTo (w ||| f.setWidth 32 <<< k) (n + f.toNat * 2 ^ k) k := by
  have hf := filledDownTo_field f k (hk.trans h.in_word)
  have hlt : f.toNat * 2 ^ k < 2 ^ j := (toNat_mul_two_pow_lt f k).trans_le (Nat.pow_le_pow_right two_pos hk)
  have hlow : 2 ^ k ∣ n := (Nat.pow_dvd_pow 2 (by omega)).trans h.low_zero
  exact ⟨hf.value ▸ h.toNat_or (hf.value ▸ hlt), hlow.add hf.low_zero, hf.in_word⟩

/-- The next bit down. -/
theorem FilledDownTo.orBit (b : Bool) (k : Nat) (hk : k < j) :
    FilledDownTo (w ||| bitAt b k) (n + b.toNat * 2 ^ k) k := by
  rw [← BitVec.toNat_ofBool]
  exact h.orField (BitVec.ofBool b) k (by omega)

/-- The field at bit 0 ends the word. -/
theorem FilledDownTo.toNat_orLast {v : Nat} (f : BitVec v) (hv : v ≤ j) :
    (w ||| f.setWidth 32).toNat = n + f.toNat := by
  have hf : (f.setWidth 32).toNat = f.toNat := BitVec.toNat_setWidth_of_le (hv.trans h.in_word)
  have hlt : f.toNat < 2 ^ j := f.isLt.trans_le (Nat.pow_le_pow_right two_pos hv)
  rw [h.toNat_or (hf ▸ hlt), hf]

end Layout

/-- STATUS: the opcode at bit 8 over the code (R23). -/
theorem toNat_status_word (st : Status) : st.word.toNat = st.lastOpcode.toNat * 2 ^ 8 + ruleCode st.code := by
  rw [← toNat_number]
  exact (filledDownTo_field st.lastOpcode 8 (by decide)).toNat_orLast st.code.number (by decide)

/-- HDR: SRC_CR at bit 1 over CR at bit 0 (R33). -/
theorem toNat_hdr_word (h : Hdr) : h.word.toNat = h.srcCr.toNat * 2 + h.cr.toNat := by
  have hword := (filledDownTo_bitAt h.srcCr 1 (by decide)).orBit h.cr 0 (by decide)
  rw [Hdr.word, hword.value, pow_one, pow_zero, mul_one]

/-- ARk_LO: four characters, CALL3 at the top (R36). -/
theorem toNat_loWord (a : AddrSlot) :
    a.loWord.toNat =
      a.call[3].toNat * 2 ^ 24 + a.call[2].toNat * 2 ^ 16 + a.call[1].toNat * 2 ^ 8 + a.call[0].toNat := by
  have hcall1 := ((filledDownTo_field a.call[3] 24 (by decide)).orField a.call[2] 16 (by decide)).orField a.call[1] 8
    (by decide)
  exact hcall1.toNat_orLast a.call[0] (by decide)

/-- ARk_HI: the four bits of the SSID byte, SSID, CLEN and two characters (R37). -/
theorem toNat_hiWord (a : AddrSlot) :
    a.hiWord.toNat =
      a.ext.toNat * 2 ^ 27 + a.res6.toNat * 2 ^ 26 + a.res5.toNat * 2 ^ 25 + a.ch.toNat * 2 ^ 24 +
        a.ssid.toNat * 2 ^ 20 + a.clen.toNat * 2 ^ 16 + a.call[5].toNat * 2 ^ 8 + a.call[4].toNat := by
  have hch := (((filledDownTo_bitAt a.ext 27 (by decide)).orBit a.res6 26 (by decide)).orBit a.res5 25
    (by decide)).orBit a.ch 24 (by decide)
  have hcall5 := ((hch.orField a.ssid 20 (by decide)).orField a.clen 16 (by decide)).orField a.call[5] 8 (by decide)
  exact hcall5.toNat_orLast a.call[4] (by decide)

/-- Every register reads as its fields by the weights of its rule. -/
theorem toNat_regWord (s : State) (r : Reg) : (s.regWord r).toNat = ruleWord s r := by
  cases r with
  | cmd => rfl
  | status => exact toNat_status_word s.status
  | ilen => exact BitVec.toNat_setWidth_of_le (by decide)
  | olen => exact BitVec.toNat_setWidth_of_le (by decide)
  | obits => rfl
  | crc => exact BitVec.toNat_setWidth_of_le (by decide)
  | fcs =>
    calc (s.fcs.setWidth 32).toNat = s.fcs.toNat := BitVec.toNat_setWidth_of_le (by decide)
      _ = 0xFFFF - s.crc.toNat := by rw [fcs_eq_not, BitVec.toNat_not]
  | din => exact BitVec.toNat_setWidth_of_le (by decide)
  | dout => exact BitVec.toNat_setWidth_of_le (by decide)
  | nrep => exact BitVec.toNat_setWidth_of_le (by decide)
  | hdr => exact toNat_hdr_word s.hdr
  | hlen => exact BitVec.toNat_setWidth_of_le (by decide)
  | arLo k => exact toNat_loWord s.ar[k]
  | arHi k => exact toNat_hiWord s.ar[k]

/-- Settles O19: the layout of STATUS with the weight 256 in front. -/
theorem statusWordShowsOpcodeAndCode : Obligations.StatusWordShowsOpcodeAndCode := by
  intro s
  rw [State.regWord, toNat_status_word]
  omega

/-- Settles O20: FCS is computed from CRC and has no storage. -/
theorem fcsIsTheComplementOfCrc : Obligations.FcsIsTheComplementOfCrc := by
  intro s w
  refine ⟨fun i hi => ?_, fun i hi => ?_, rfl, rfl⟩
  · have hi' : i < 32 := by omega
    simp [State.regWord, fcs_eq_not, hi, hi']
  · have hbit : s.fcs.getLsbD i = false := BitVec.getLsbD_of_ge _ _ hi
    simp [State.regWord, hbit]

/-! ## The steps of a command write and of a register read -/

/-- A word that decodes to a command runs it (R80). -/
theorem runWord_of_decode {w : Word} {i : Instr} (hw : decode w = .ok i) (s : State) : runWord w s = exec i s := by
  rw [runWord, hw]

/-- A write of CMD, at offset 0, is a command fetch (R51, R80). -/
theorem fetchCommand_of_writeCmd {s : State} {w : Word} {rest : List Input}
    (h : s.inputs = .writeWord 0x00000 w :: rest) : fetchCommand s = some (w, { s with inputs := rest }) := by
  rw [fetchCommand, h]
  rfl

/-- Settles O6: the write of CMD is fetched, and its word decodes. -/
theorem stepRunsTheDecodedCommand : Obligations.StepRunsTheDecodedCommand := by
  intro s w i rest h hw
  rw [step, fetchCommand_of_writeCmd h]
  exact runWord_of_decode hw _

/-- The offsets of the map are aligned, inside the register window, and the model's own (R50, R51, R52). -/
theorem regAt_of_mem_registerMap :
    ∀ p ∈ registerMap, regAt p.1 = some p.2 ∧ p.1 % 4 = 0 ∧ p.1 < 0x1000 := by decide

/-- No buffer byte is in the register window (R50). -/
theorem isBufferByte_of_lt_regWindowEnd (c : Config) {a : Nat} (h : a < 0x1000) : c.isBufferByte a = false := by
  rw [Bool.eq_false_iff, ne_eq, isBufferByte_iff]
  omega

/-- A word read the interface has answers the word at its address and changes nothing else (R63, R67). -/
theorem step_readWord {s : State} {a : Addr} {rest : List Input} (h : s.inputs = .readWord a :: rest)
    (ha : s.cfg.wordAccess a = true) :
    step s = .next { s with inputs := rest, replies := .word (s.readWord a) :: s.replies } := by
  have hf : fetchCommand s = none := by rw [fetchCommand, h]
  have hi : inInterface s.cfg (.readWord a) = true := ha
  rw [step, hf]
  simp only [hostStep, h, hi]
  rfl

/-- Settles O58: the offset selects the register, and its word is that of its fields. -/
theorem registerWordsShowTheirFields : Obligations.RegisterWordsShowTheirFields := by
  intro s off r rest hmem h
  obtain ⟨hreg, halign, hwin⟩ := regAt_of_mem_registerMap (off, r) hmem
  have hoff : (BitVec.ofNat 18 off).toNat = off := by
    rw [BitVec.toNat_ofNat, Nat.mod_eq_of_lt (hwin.trans (by decide))]
  have haccess : s.cfg.wordAccess (BitVec.ofNat 18 off) = true := by
    simp [Config.wordAccess, hoff, halign, isBufferByte_of_lt_regWindowEnd s.cfg hwin]
  have hread : s.readWord (BitVec.ofNat 18 off) = s.regWord r := by rw [State.readWord, hoff, hreg]
  exact ⟨s.regWord r, toNat_regWord s r, hread ▸ step_readWord h haccess⟩

/-! ## The frame of every command -/

/-- What a command computes from the state before it writes anything. -/
abbrev CommandOutput : Instr → Type
  | .softReset => Unit
  | .crcInit | .crcByte | .crcBuf => BitVec 16
  | .revByte => Byte
  | .fcsCheck | .revBuf | .addrEncode => List Byte
  | .hdlcEncode => Bits
  | .hdlcDecode => List Byte × Nat
  | .addrDecode => ParsedField

/-- The checks and the result of a command. -/
def commandResult (s : State) : (i : Instr) → Except StatusCode (CommandOutput i)
  | .softReset => .ok ()
  | .crcInit => .ok 0xFFFF
  | .crcByte => .ok (crcStep s.crc s.din)
  | .crcBuf => crcBufResult s
  | .fcsCheck => fcsCheckResult s
  | .revByte => .ok (rev8 s.din)
  | .revBuf => revBufResult s
  | .hdlcEncode => hdlcEncodeResult s
  | .hdlcDecode => hdlcDecodeResult s
  | .addrEncode => addrEncodeResult s
  | .addrDecode => addrDecodeResult s

/-- What a command that passes its checks writes beside STATUS. -/
def commitOutput (s : State) : (i : Instr) → CommandOutput i → State
  | .softReset, _ => resetRegisters s
  | .crcInit, c => { s with crc := c }
  | .crcByte, c => { s with crc := c }
  | .crcBuf, c => { s with crc := c }
  | .fcsCheck, _ => s
  | .revByte, b => { s with dout := b }
  | .revBuf, out => { storeObuf out s with olen := BitVec.ofNat 16 out.length }
  | .hdlcEncode, line =>
    { storeObuf (packMSB line) s with
      olen := BitVec.ofNat 16 (octets line.length)
      obits := BitVec.ofNat 32 line.length }
  | .hdlcDecode, (p, used) =>
    { storeObuf p s with
      olen := BitVec.ofNat 16 p.length
      obits := BitVec.ofNat 32 used }
  | .addrEncode, field =>
    { storeObuf field s with
      olen := BitVec.ofNat 16 field.length
      hlen := BitVec.ofNat 8 field.length }
  | .addrDecode, f =>
    { s with
      ar := setSlots s.ar 0 (f.dst :: f.src :: f.repeaters)
      nrep := BitVec.ofNat 4 f.repeaters.length
      hdr := { cr := f.dst.ch, srcCr := f.src.ch }
      hlen := BitVec.ofNat 8 (fieldLength f.repeaters.length) }

/-- Every command is a `finish` of its result (R252). -/
theorem exec_eq_finish (i : Instr) (s : State) :
    exec i s = finish i.opcode (commandResult s i) (fun a u => commitOutput u i a) s := by
  cases i <;> rfl

/-- The two ends of a command: the error of its result raised, or the output of its result committed. -/
theorem exec_next {i : Instr} {s t : State} (h : exec i s = .next t) :
    (∃ c, commandResult s i = .error c ∧ t = raiseStatus i.opcode c s) ∨
    (∃ a, commandResult s i = .ok a ∧ t = complete i.opcode (commitOutput s i a)) := by
  rw [exec_eq_finish] at h
  exact finish_next.mp h

/-- Settles O26: neither end of these commands touches another register or memory. -/
theorem registerCommandsFrame : Obligations.RegisterCommandsFrame := by
  intro s t
  refine ⟨?_, fun h => ?_, fun h => ?_, fun h => ?_⟩
  · rintro (h | h | h) <;> obtain ⟨c, -, rfl⟩ | ⟨a, -, rfl⟩ := exec_next h <;> rfl
  · obtain ⟨c, -, rfl⟩ | ⟨a, -, rfl⟩ := exec_next h <;> rfl
  · obtain ⟨c, -, rfl⟩ | ⟨a, -, rfl⟩ := exec_next h <;> rfl
  · obtain ⟨c, -, rfl⟩ | ⟨a, -, rfl⟩ := exec_next h <;> rfl

/-- Every command records its opcode, however it ends (R23). -/
theorem exec_lastOpcode {i : Instr} {s t : State} (h : exec i s = .next t) : t.status.lastOpcode = i.opcode := by
  obtain ⟨c, -, rfl⟩ | ⟨a, -, rfl⟩ := exec_next h <;> rfl

/-- The opcodes are those of R83. -/
theorem opcode_mem_commandWords (i : Instr) : (i.opcode.setWidth 32, i) ∈ commandWords := by
  cases i <;> decide

/-- Only SOFT_RESET writes ILEN and DIN (R25, R30). -/
theorem exec_operands {i : Instr} {s t : State} (h : exec i s = .next t) (hi : i ≠ .softReset) :
    t.ilen = s.ilen ∧ t.din = s.din := by
  obtain ⟨c, -, rfl⟩ | ⟨a, -, rfl⟩ := exec_next h
  · exact ⟨rfl, rfl⟩
  · cases i with
    | softReset => exact absurd rfl hi
    | _ => exact ⟨rfl, rfl⟩

/-- No command touches what is outside the block's registers and buffers. -/
theorem exec_surroundings {i : Instr} {s t : State} (h : exec i s = .next t) :
    t.cfg = s.cfg ∧ t.inputs = s.inputs ∧ t.replies = s.replies ∧ t.powerCycle = s.powerCycle := by
  obtain ⟨c, -, rfl⟩ | ⟨a, -, rfl⟩ := exec_next h
  · exact ⟨rfl, rfl, rfl, rfl⟩
  · cases i <;> exact ⟨rfl, rfl, rfl, rfl⟩

/-- No command writes below OBUF: those that store at all store to OBUF (R41). -/
theorem exec_byteAt_below {i : Instr} {s t : State} (h : exec i s = .next t) {x : Nat} (hx : x < obufBase) :
    t.byteAt x = s.byteAt x := by
  obtain ⟨c, -, rfl⟩ | ⟨a, -, rfl⟩ := exec_next h
  · rfl
  · cases i with
    | revBuf => exact byteAt_storeObuf_below s a hx
    | hdlcEncode => exact byteAt_storeObuf_below s (packMSB a) hx
    | hdlcDecode => exact byteAt_storeObuf_below s a.1 hx
    | addrEncode => exact byteAt_storeObuf_below s a hx
    | _ => rfl

/-- Settles O23: every command ends, and both its ends leave what no command writes. -/
theorem everyCommandEndsAndRecordsItsOpcode : Obligations.EveryCommandEndsAndRecordsItsOpcode := by
  intro i s
  obtain ⟨t, h⟩ := exec_proceeds i s
  refine ⟨t, h, ?_, exec_operands h, fun a ha => exec_byteAt_below h ha, exec_surroundings h⟩
  rw [exec_lastOpcode h]
  exact opcode_mem_commandWords i

/-! ## What the storing commands store -/

/-- How a storing command ends: nothing is stored, or OBUF holds an output that fits in it, and OLEN its length. -/
def EndsWithOutput (s t : State) : Prop :=
  (∀ a, t.byteAt a = s.byteAt a) ∨
  (t.status.code = .ok ∧ ∃ out : List Byte, out.length ≤ s.cfg.obufBytes ∧
    t.olen = BitVec.ofNat 16 out.length ∧ ∀ a, t.byteAt a = (storeObuf out s).byteAt a)

theorem execRevBuf_endsWithOutput {s t : State} (h : execRevBuf s = .next t) : EndsWithOutput s t := by
  obtain ⟨c, -, rfl⟩ | ⟨out, -, hfit, rfl⟩ := execRevBuf_next h
  · exact .inl (fun _ => rfl)
  · exact .inr ⟨rfl, out, hfit, rfl, fun _ => rfl⟩

theorem execHdlcEncode_endsWithOutput {s t : State} (h : execHdlcEncode s = .next t) : EndsWithOutput s t := by
  obtain ⟨c, -, rfl⟩ | ⟨line, -, -, hfit, rfl⟩ := execHdlcEncode_next h
  · exact .inl (fun _ => rfl)
  · rw [← length_packMSB] at hfit ⊢
    exact .inr ⟨rfl, packMSB line, hfit, rfl, fun _ => rfl⟩

theorem execHdlcDecode_endsWithOutput {s t : State} (h : execHdlcDecode s = .next t) : EndsWithOutput s t := by
  obtain ⟨c, -, rfl⟩ | ⟨p, used, -, -, hfit, rfl⟩ := execHdlcDecode_next h
  · exact .inl (fun _ => rfl)
  · rw [← List.length_map rev8] at hfit ⊢
    exact .inr ⟨rfl, p.map rev8, hfit, rfl, fun _ => rfl⟩

theorem execAddrEncode_endsWithOutput {s t : State} (h : execAddrEncode s = .next t) : EndsWithOutput s t := by
  obtain ⟨c, -, rfl⟩ | ⟨field, -, -, -, hfit, rfl⟩ := execAddrEncode_next h
  · exact .inl (fun _ => rfl)
  · exact .inr ⟨rfl, field, hfit, rfl, fun _ => rfl⟩

/-- With legal capacities the output's length fits in OLEN, so the bytes stored are OBUF[0 .. OLEN-1]. -/
theorem EndsWithOutput.frame {s t : State} (h : EndsWithOutput s t) (hcfg : s.cfg.wellFormed = true) :
    OnlyObufBelow t.olen.toNat s t ∧ (t.status.code ≠ .ok → ∀ a, t.byteAt a = s.byteAt a) := by
  obtain hsame | ⟨hok, out, hfit, holen, hbytes⟩ := h
  · exact ⟨fun a _ => hsame a, fun _ => hsame⟩
  · obtain ⟨-, -, -, hcap⟩ := (config_wellFormed_iff _).mp hcfg
    have hlen : t.olen.toNat = out.length := by rw [holen, BitVec.toNat_ofNat]; omega
    refine ⟨fun a ha => ?_, fun hne => absurd hok hne⟩
    rw [hbytes, byteAt_storeObuf, if_neg (by unfold obufBase; omega)]

/-- Settles O27: the registers by the two ends of each command, the bytes by its output. -/
theorem storingCommandsFrame : Obligations.StoringCommandsFrame := by
  intro s t hcfg
  refine ⟨fun h => ?_, ?_, fun h => ?_, ?_⟩
  · obtain ⟨c, -, rfl⟩ | ⟨a, -, rfl⟩ := exec_next h <;> rfl
  · rintro (h | h) <;> obtain ⟨c, -, rfl⟩ | ⟨a, -, rfl⟩ := exec_next h <;> rfl
  · obtain ⟨c, -, rfl⟩ | ⟨a, -, rfl⟩ := exec_next h <;> rfl
  · rintro (h | h | h | h)
    · exact (execRevBuf_endsWithOutput h).frame hcfg
    · exact (execHdlcEncode_endsWithOutput h).frame hcfg
    · exact (execHdlcDecode_endsWithOutput h).frame hcfg
    · exact (execAddrEncode_endsWithOutput h).frame hcfg

/-! ## What the commands read -/

/-- `s'` differs from `s` in STATUS and in bytes of OBUF and above only. -/
structure SameOperands (s s' : State) : Prop where
  registers : s' = { s with status := s'.status, mem := s'.mem }
  byteAt_below : ∀ a, a < obufBase → s'.byteAt a = s.byteAt a

section SameOperands

variable {s s' : State} (h : SameOperands s s')
include h

theorem SameOperands.ilen : s'.ilen = s.ilen := by rw [h.registers]
theorem SameOperands.crc : s'.crc = s.crc := by rw [h.registers]
theorem SameOperands.din : s'.din = s.din := by rw [h.registers]
theorem SameOperands.nrep : s'.nrep = s.nrep := by rw [h.registers]
theorem SameOperands.ar : s'.ar = s.ar := by rw [h.registers]
theorem SameOperands.cfg : s'.cfg = s.cfg := by rw [h.registers]

/-- The IBUF window ends where OBUF's begins (R50). -/
theorem SameOperands.ibuf {i : Nat} (hi : i < 65536) : s'.ibuf i = s.ibuf i :=
  h.byteAt_below _ (by unfold ibufBase obufBase; omega)

theorem SameOperands.checkedInput : checkedInput s' = checkedInput s := by
  have hbytes : inputBytes s' s.ilen.toNat = inputBytes s s.ilen.toNat :=
    inputBytes_congr (fun i hi => h.ibuf (by omega))
  rw [Machine.checkedInput, h.ilen, h.cfg, hbytes, ← Machine.checkedInput]

theorem SameOperands.fitsObuf (n : Nat) : fitsObuf s' n = fitsObuf s n := by
  rw [Machine.fitsObuf, h.cfg, ← Machine.fitsObuf]

theorem SameOperands.crcBufResult : crcBufResult s' = crcBufResult s := by
  simp only [Machine.crcBufResult, h.checkedInput, h.crc]

theorem SameOperands.fcsCheckResult : fcsCheckResult s' = fcsCheckResult s := by
  simp only [Machine.fcsCheckResult, h.checkedInput]

theorem SameOperands.revBufResult : revBufResult s' = revBufResult s := by
  simp only [Machine.revBufResult, h.checkedInput, h.fitsObuf]

theorem SameOperands.hdlcEncodeResult : hdlcEncodeResult s' = hdlcEncodeResult s := by
  simp only [Machine.hdlcEncodeResult, h.checkedInput, h.fitsObuf]

theorem SameOperands.hdlcDecodeResult : hdlcDecodeResult s' = hdlcDecodeResult s := by
  simp only [Machine.hdlcDecodeResult, h.checkedInput, h.fitsObuf]

theorem SameOperands.usedSlots (r : Nat) : usedSlots s' r = usedSlots s r := by
  rw [Machine.usedSlots, h.ar, ← Machine.usedSlots]

theorem SameOperands.addrEncodeResult : addrEncodeResult s' = addrEncodeResult s := by
  simp only [Machine.addrEncodeResult, h.nrep, h.usedSlots, h.fitsObuf]

/-- The groups of an address field are ten at most. -/
theorem SameOperands.inputGroup {k : Nat} (hk : k < 10) : inputGroup s' k = inputGroup s k := by
  simp (disch := omega) only [Machine.inputGroup, h.ibuf]

theorem SameOperands.walkRepeaters (left j : Nat) (hj : left + j < 10) :
    walkRepeaters s' left j = walkRepeaters s left j := by
  induction left generalizing j with
  | zero => rfl
  | succ left ih =>
    simp only [Machine.walkRepeaters, h.ilen, h.inputGroup (k := j + 1) (by omega), ih (j + 1) (by omega)]

theorem SameOperands.addrDecodeResult : addrDecodeResult s' = addrDecodeResult s := by
  simp only [Machine.addrDecodeResult, h.ilen, h.cfg, h.inputGroup (k := 0) (by omega),
    h.inputGroup (k := 1) (by omega), h.walkRepeaters 8 1 (by omega)]

end SameOperands

/-- `t` and `t'`, reached from `s` and `s'`, have the same registers and STATUS, and each byte ends equal in both or is
untouched in both. -/
def SameEnd (s s' t t' : State) : Prop :=
  t' = { t with mem := t'.mem } ∧
  ∀ a, t'.byteAt a = t.byteAt a ∨ (t'.byteAt a = s'.byteAt a ∧ t.byteAt a = s.byteAt a)

/-- A byte stored to OBUF is the same in both, and any other is untouched. -/
theorem byteAt_storeObuf_eq_or_untouched (s s' : State) (out : List Byte) (a : Nat) :
    (storeObuf out s').byteAt a = (storeObuf out s).byteAt a ∨
    ((storeObuf out s').byteAt a = s'.byteAt a ∧ (storeObuf out s).byteAt a = s.byteAt a) := by
  by_cases ha : obufBase ≤ a ∧ a < obufBase + out.length <;> simp only [byteAt_storeObuf, ha]
  · exact .inl rfl
  · exact .inr ⟨rfl, rfl⟩

/-- Every command computes the same result from the same operands. -/
theorem SameOperands.commandResult {s s' : State} (h : SameOperands s s') (i : Instr) :
    commandResult s' i = commandResult s i := by
  cases i with
  | softReset => rfl
  | crcInit => rfl
  | crcByte => rw [Machine.commandResult, h.crc, h.din, ← Machine.commandResult]
  | crcBuf => exact h.crcBufResult
  | fcsCheck => exact h.fcsCheckResult
  | revByte => rw [Machine.commandResult, h.din, ← Machine.commandResult]
  | revBuf => exact h.revBufResult
  | hdlcEncode => exact h.hdlcEncodeResult
  | hdlcDecode => exact h.hdlcDecodeResult
  | addrEncode => exact h.addrEncodeResult
  | addrDecode => exact h.addrDecodeResult

/-- Committing the same output ends alike. -/
theorem SameOperands.commitOutput {s s' : State} (h : SameOperands s s') (op : BitVec 8) (i : Instr)
    (a : CommandOutput i) :
    SameEnd s s' (complete op (commitOutput s i a)) (complete op (commitOutput s' i a)) := by
  rw [h.registers]
  cases i with
  | revBuf => exact ⟨rfl, byteAt_storeObuf_eq_or_untouched s _ a⟩
  | hdlcEncode => exact ⟨rfl, byteAt_storeObuf_eq_or_untouched s _ (packMSB a)⟩
  | hdlcDecode => exact ⟨rfl, byteAt_storeObuf_eq_or_untouched s _ a.1⟩
  | addrEncode => exact ⟨rfl, byteAt_storeObuf_eq_or_untouched s _ a⟩
  | _ => exact ⟨rfl, fun _ => .inr ⟨rfl, rfl⟩⟩

/-- Raising the same code ends alike. -/
theorem SameOperands.raiseStatus {s s' : State} (h : SameOperands s s') (op : BitVec 8) (c : StatusCode) :
    SameEnd s s' (raiseStatus op c s) (raiseStatus op c s') := by
  rw [h.registers]
  exact ⟨rfl, fun _ => .inr ⟨rfl, rfl⟩⟩

/-- Every command ends alike from the same operands. -/
theorem SameOperands.exec {s s' t t' : State} (h : SameOperands s s') {i : Instr} (ht : exec i s = .next t)
    (ht' : exec i s' = .next t') : SameEnd s s' t t' := by
  rw [exec_eq_finish] at ht
  rw [exec_eq_finish, h.commandResult] at ht'
  generalize Machine.commandResult s i = r at ht ht'
  cases r with
  | error c =>
    cases ht
    cases ht'
    exact h.raiseStatus i.opcode c
  | ok a =>
    cases ht
    cases ht'
    exact h.commitOutput i.opcode i a

/-- Settles O28: the two states give a command the same operands. -/
theorem commandsReadNeitherStatusNorObuf : Obligations.CommandsReadNeitherStatusNorObuf :=
  fun _ _ _ _ _ hregs hbytes ht ht' => SameOperands.exec ⟨hregs, hbytes⟩ ht ht'

end Sys2Proof.Machine
end

