-- ==== Sys2Proof/Proofs/Memory.lean ====
section
/-! PROOF. The host port: the register map, the steps of the host's moves, and what registers and buffer bytes read as
after a write. Each move has one equation for its step, and the whole step one lemma for a move the interface has and
one for a move it has not. -/

namespace Sys2Proof.Machine

open Sys2Proof Sys2Proof.Claims

/-! ## The register map -/

theorem offset_mem_registerMap (r : Reg) : (r.offset, r) ∈ registerMap := by
  cases r with
  | arLo k => revert k; decide
  | arHi k => revert k; decide
  | _ => decide

theorem offset_of_mem_registerMap : ∀ p ∈ registerMap, p.1 = p.2.offset := by decide

theorem regAt_offset (r : Reg) : regAt r.offset = some r :=
  let ⟨hreg, _, _⟩ := regAt_of_mem_registerMap _ (offset_mem_registerMap r)
  hreg

theorem offset_mod_four (r : Reg) : r.offset % 4 = 0 :=
  let ⟨_, halign, _⟩ := regAt_of_mem_registerMap _ (offset_mem_registerMap r)
  halign

theorem offset_lt_regWindowEnd (r : Reg) : r.offset < 0x1000 :=
  let ⟨_, _, hwin⟩ := regAt_of_mem_registerMap _ (offset_mem_registerMap r)
  hwin

/-- For a slot, `regAt` divides the offset by 8 to get `k`, and `Reg.offset` multiplies it back. -/
theorem offset_of_regAt {off : Nat} {r : Reg} (h : regAt off = some r) : off = r.offset := by
  unfold regAt at h
  split at h
  case h_13 =>
    split at h
    · split at h
      · cases h
        simp only [Reg.offset]
        omega
      · split at h <;> cases h
        simp only [Reg.offset]
        omega
    · cases h
  all_goals
    cases h
    rfl

/-- The model's two readings of the register map agree (R51). -/
theorem regAt_eq_some_iff {off : Nat} {r : Reg} : regAt off = some r ↔ off = r.offset :=
  ⟨offset_of_regAt, fun h => h ▸ regAt_offset r⟩

theorem mem_registerMap_iff {off : Nat} {r : Reg} : (off, r) ∈ registerMap ↔ off = r.offset :=
  ⟨offset_of_mem_registerMap (off, r), fun h => h ▸ offset_mem_registerMap r⟩

theorem regAt_eq_none {off : Nat} (h : ∀ r : Reg, off ≠ r.offset) : regAt off = none :=
  Option.eq_none_iff_forall_ne_some.mpr fun r hr => h r (offset_of_regAt hr)

/-- Settles O4: the model's offset of a register, its register at an offset and the written-out map are one relation. -/
theorem registerMapHasOneRegisterPerOffset : Obligations.RegisterMapHasOneRegisterPerOffset :=
  fun _ _ => ⟨regAt_eq_some_iff.trans mem_registerMap_iff.symm, mem_registerMap_iff.symm⟩

theorem toNat_addr (r : Reg) : r.addr.toNat = r.offset := by
  rw [Reg.addr, BitVec.toNat_ofNat, Nat.mod_eq_of_lt ((offset_lt_regWindowEnd r).trans (by decide))]

@[simp] theorem regAt_addr (r : Reg) : regAt r.addr.toNat = some r := by
  rw [toNat_addr, regAt_offset]

/-! ## The accesses of the host interface -/

theorem wordAccess_iff {c : Config} {a : Addr} :
    c.wordAccess a = true ↔ a.toNat % 4 = 0 ∧ c.isBufferByte a.toNat = false := by
  simp [Config.wordAccess]

theorem byteAccess_iff {a : Addr} : byteAccess a = true ↔ 0x1000 ≤ a.toNat := by
  simp [byteAccess]

/-- Words of registers are in the interface (R52). -/
theorem wordAccess_of_regAt (c : Config) {a : Addr} {r : Reg} (h : regAt a.toNat = some r) : c.wordAccess a = true := by
  have ha := offset_of_regAt h
  exact wordAccess_iff.mpr
    ⟨ha ▸ offset_mod_four r, isBufferByte_of_lt_regWindowEnd c (ha ▸ offset_lt_regWindowEnd r)⟩

/-- The moves that the interface has not, by address and width (R52, R56). -/
theorem wellFormed_eq_false_iff (c : Config) (i : Input) :
    i.wellFormed c = false ↔
      (∃ a, (i = .readWord a ∨ ∃ w, i = .writeWord a w) ∧ (a.toNat % 4 ≠ 0 ∨ c.isBufferByte a.toNat = true)) ∨
      (∃ a, (i = .readByte a ∨ ∃ b, i = .writeByte a b) ∧ a.toNat < 0x1000) := by
  have hword (a : Addr) : c.wordAccess a = false ↔ a.toNat % 4 ≠ 0 ∨ c.isBufferByte a.toNat = true := by
    rw [← Bool.not_eq_true, wordAccess_iff, not_and_or, Bool.not_eq_false]
  have hbyte (a : Addr) : byteAccess a = false ↔ a.toNat < 0x1000 := by
    rw [← Bool.not_eq_true, byteAccess_iff, Nat.not_le]
  cases i with
  | writeWord a w => simp [Input.wellFormed, hword]
  | readWord a => simp [Input.wellFormed, hword]
  | writeByte a b => simp [Input.wellFormed, hbyte]
  | readByte a => simp [Input.wellFormed, hbyte]
  | powerOn => simp [Input.wellFormed]

/-! ## The step of each kind of move -/

theorem step_idle {s : State} (h : s.inputs = []) : step s = .next s := by
  have hf : fetchCommand s = none := by rw [fetchCommand, h]
  rw [step, hf]
  simp only [hostStep, h]

/-- The move is a write of CMD, which starts a command (R40, R80). -/
def StartsCommand (i : Input) : Prop := ∃ a w, i = .writeWord a w ∧ regAt a.toNat = some .cmd

section Moves

variable {s : State} {i : Input} {a : Addr} {rest : List Input}

theorem step_writeCmd {w : Word} (h : s.inputs = .writeWord a w :: rest) (ha : regAt a.toNat = some .cmd) :
    step s = runWord w { s with inputs := rest } := by
  have hf : fetchCommand s = some (w, { s with inputs := rest }) := by
    rw [fetchCommand, h]
    exact if_pos ha
  rw [step, hf]

theorem fetchCommand_eq_none (h : s.inputs = i :: rest) (hi : ¬ StartsCommand i) : fetchCommand s = none := by
  rw [fetchCommand, h]
  cases i with
  | writeWord a w => exact if_neg fun ha => hi ⟨a, w, rfl, ha⟩
  | _ => rfl

/-- A move that starts no command has its effect at once if the interface has it (R63, R67). -/
theorem step_move (h : s.inputs = i :: rest) (hi : ¬ StartsCommand i) (hwf : i.wellFormed s.cfg = true) :
    step s = .next (applyInput i { s with inputs := rest }) := by
  have hin : inInterface s.cfg i = true := hwf
  rw [step, fetchCommand_eq_none h hi]
  simp only [hostStep, h, hin, if_true]

theorem startsCommand_wellFormed (c : Config) (hi : StartsCommand i) : i.wellFormed c = true := by
  obtain ⟨a, w, rfl, ha⟩ := hi
  exact wordAccess_of_regAt c ha

theorem step_outside (h : s.inputs = i :: rest) (hwf : i.wellFormed s.cfg = false) :
    step s = .refused .outsideHostInterface := by
  have hi : ¬ StartsCommand i := fun hi => by simp [startsCommand_wellFormed s.cfg hi] at hwf
  have hin : inInterface s.cfg i = false := hwf
  rw [step, fetchCommand_eq_none h hi]
  simp [hostStep, h, hin]

theorem step_readByte {b : Byte} (h : s.inputs = .readByte a :: rest) (ha : 0x1000 ≤ a.toNat)
    (hb : s.readByte a = b) : step s = .next { s with inputs := rest, replies := .byte b :: s.replies } := by
  rw [← hb]
  exact step_move h (by simp [StartsCommand]) (byteAccess_iff.mpr ha)

theorem step_writeByte_exists {b : Byte} (h : s.inputs = .writeByte a b :: rest) (ha : 0x1000 ≤ a.toNat)
    (hb : s.cfg.isBufferByte a.toNat = true) :
    step s = .next { s with inputs := rest, mem := Memory.write s.mem a.toNat b } := by
  rw [step_move h (by simp [StartsCommand]) (byteAccess_iff.mpr ha), applyInput, State.writeByte]
  exact congrArg _ (if_pos hb)

theorem step_writeByte_hole {b : Byte} (h : s.inputs = .writeByte a b :: rest) (ha : 0x1000 ≤ a.toNat)
    (hb : ¬ s.cfg.isBufferByte a.toNat = true) : step s = .next { s with inputs := rest } := by
  rw [step_move h (by simp [StartsCommand]) (byteAccess_iff.mpr ha), applyInput, State.writeByte]
  exact congrArg _ (if_neg hb)

theorem step_writeReg {r : Reg} {w : Word} (h : s.inputs = .writeWord r.addr w :: rest) (hr : r ≠ .cmd) :
    step s = .next (State.setReg { s with inputs := rest } r w) := by
  have hcmd : ¬ StartsCommand (.writeWord r.addr w) := by simpa [StartsCommand] using hr
  rw [step_move h hcmd (wordAccess_of_regAt s.cfg (regAt_addr r)), applyInput, State.writeWord, regAt_addr]

theorem step_readReg {r : Reg} (h : s.inputs = .readWord r.addr :: rest) :
    step s = .next { s with inputs := rest, replies := .word (s.regWord r) :: s.replies } := by
  rw [step_readWord h (wordAccess_of_regAt s.cfg (regAt_addr r)), State.readWord, regAt_addr]

end Moves

/-! ## The whole step -/

/-- What a move gives back to the host (R67). -/
def State.answers (s : State) : Input → List Reply
  | .readWord a => [.word (s.readWord a)]
  | .readByte a => [.byte (s.readByte a)]
  | _ => []

theorem setReg_surroundings (s : State) (r : Reg) (w : Word) :
    (s.setReg r w).mem = s.mem ∧ (s.setReg r w).cfg = s.cfg ∧ (s.setReg r w).inputs = s.inputs ∧
      (s.setReg r w).replies = s.replies ∧ (s.setReg r w).powerCycle = s.powerCycle := by
  obtain ⟨-, -, -, -, -, -, hrest⟩ := setReg_frame s r w
  exact hrest

theorem writeWord_surroundings (s : State) (a : Addr) (w : Word) :
    (s.writeWord a w).cfg = s.cfg ∧ (s.writeWord a w).inputs = s.inputs ∧
      (s.writeWord a w).replies = s.replies := by
  obtain ⟨r, -, hw⟩ | ⟨-, hw⟩ := writeWord_cases s a w <;> rw [hw]
  · obtain ⟨-, hcfg, hinputs, hreplies, -⟩ := setReg_surroundings s r w
    exact ⟨hcfg, hinputs, hreplies⟩
  · exact ⟨rfl, rfl, rfl⟩

theorem writeByte_surroundings (s : State) (a : Addr) (b : Byte) :
    (s.writeByte a b).cfg = s.cfg ∧ (s.writeByte a b).inputs = s.inputs ∧
      (s.writeByte a b).replies = s.replies := by
  unfold State.writeByte
  split <;> exact ⟨rfl, rfl, rfl⟩

theorem applyInput_surroundings (i : Input) (s : State) :
    (applyInput i s).cfg = s.cfg ∧ (applyInput i s).inputs = s.inputs ∧
      (applyInput i s).replies = s.answers i ++ s.replies := by
  cases i with
  | writeWord a w => exact writeWord_surroundings s a w
  | writeByte a b => exact writeByte_surroundings s a b
  | _ => exact ⟨rfl, rfl, rfl⟩

/-- A command word, decodable or not, has a next state and leaves the host's side alone. -/
theorem runWord_surroundings (w : Word) (s : State) :
    ∃ t, runWord w s = .next t ∧ t.cfg = s.cfg ∧ t.inputs = s.inputs ∧ t.replies = s.replies := by
  unfold runWord
  split
  · next i _ =>
    obtain ⟨t, ht⟩ := exec_proceeds i s
    obtain ⟨hcfg, hinputs, hreplies, -⟩ := exec_surroundings ht
    exact ⟨t, ht, hcfg, hinputs, hreplies⟩
  · exact ⟨_, rfl, rfl, rfl, rfl⟩

/-- A move the interface has is taken, and only reads are answered (R64, R67). -/
theorem step_wellFormed {s : State} {i : Input} {rest : List Input} (h : s.inputs = i :: rest)
    (hwf : i.wellFormed s.cfg = true) :
    ∃ t, step s = .next t ∧ t.cfg = s.cfg ∧ t.inputs = rest ∧ t.replies = s.answers i ++ s.replies := by
  by_cases hi : StartsCommand i
  · obtain ⟨a, w, rfl, ha⟩ := hi
    rw [step_writeCmd h ha]
    exact runWord_surroundings w { s with inputs := rest }
  · refine ⟨_, step_move h hi hwf, ?_⟩
    obtain ⟨hcfg, hinputs, hreplies⟩ := applyInput_surroundings i { s with inputs := rest }
    exact ⟨hcfg, hinputs, by rw [hreplies]; cases i <;> rfl⟩

/-- Settles O16: a pending move is taken if the interface has it and refused if not. -/
theorem onlyMovesOutsideTheInterfaceAreRefused : Obligations.OnlyMovesOutsideTheInterfaceAreRefused := by
  intro s x
  simp only [← wellFormed_eq_false_iff]
  constructor
  · intro hstep
    cases h : s.inputs with
    | nil => simp [step_idle h] at hstep
    | cons i rest =>
      cases hwf : i.wellFormed s.cfg with
      | true =>
        obtain ⟨t, ht, -⟩ := step_wellFormed h hwf
        simp [ht] at hstep
      | false =>
        rw [step_outside h hwf] at hstep
        cases hstep
        exact ⟨rfl, i, rest, rfl, hwf⟩
  · rintro ⟨rfl, i, rest, h, hwf⟩
    exact step_outside h hwf

/-- Settles O17: with no move the block is idle, and a legal move is taken. -/
theorem legalMovesAlwaysProceed : Obligations.LegalMovesAlwaysProceed := by
  intro s hlegal
  cases h : s.inputs with
  | nil => exact ⟨s, step_idle h⟩
  | cons i rest =>
    obtain ⟨t, ht, -⟩ := step_wellFormed h (hlegal i rest h)
    exact ⟨t, ht⟩

/-- Settles O18: the move taken is the first one, and `State.answers` is one reply for a read and none for others. -/
theorem stepsTakeTheHostsMovesInOrder : Obligations.StepsTakeTheHostsMovesInOrder := by
  intro s t hstep
  cases h : s.inputs with
  | nil =>
    rw [step_idle h] at hstep
    cases hstep
    exact .inl ⟨rfl, rfl⟩
  | cons i rest =>
    cases hwf : i.wellFormed s.cfg with
    | false => simp [step_outside h hwf] at hstep
    | true =>
      obtain ⟨u, hu, hcfg, hinputs, hreplies⟩ := step_wellFormed h hwf
      rw [hu] at hstep
      cases hstep
      refine .inr ⟨i, by rw [hinputs], hcfg, ?_, fun hother => ?_⟩
      · rintro ⟨a, rfl | rfl⟩ <;> exact ⟨_, hreplies⟩
      · cases i with
        | readWord a => exact absurd rfl (hother a).1
        | readByte a => exact absurd rfl (hother a).2
        | _ => exact hreplies

/-! ## Reads and holes -/

/-- Settles O12: a reply depends on neither the moves nor the replies, which are all that a read changes. -/
theorem readsHaveNoSideEffect : Obligations.ReadsHaveNoSideEffect := by
  rintro s i rest (⟨a, rfl⟩ | ⟨a, rfl⟩) hwf h
  · exact ⟨_, _, .word (s.readWord a), step_readWord h hwf, step_readWord rfl hwf, rfl, rfl⟩
  · have ha : 0x1000 ≤ a.toNat := byteAccess_iff.mp hwf
    exact ⟨_, _, .byte (s.readByte a), step_readByte h ha rfl, step_readByte rfl ha rfl, rfl, rfl⟩

theorem readByte_write_same {s : State} {a : Addr} (hb : s.cfg.isBufferByte a.toNat = true) (b : Byte) :
    State.readByte { s with mem := Memory.write s.mem a.toNat b } a = b := by
  rw [State.readByte, if_pos hb, byteAt_write, if_pos rfl]

theorem readByte_hole {s : State} {a : Addr} (hb : ¬ s.cfg.isBufferByte a.toNat = true) : s.readByte a = 0 :=
  if_neg hb

/-- Settles O13: by whether the byte exists (R56, R57). -/
theorem bufferByteReadsBack : Obligations.BufferByteReadsBack := by
  intro s a b rest ha h
  simp only [← isBufferByte_iff]
  by_cases hb : s.cfg.isBufferByte a.toNat = true
  · exact ⟨_, _, step_writeByte_exists h ha hb, step_readByte rfl ha (readByte_write_same hb b),
      fun _ => ⟨rfl, fun x => byteAt_write s _ x b, rfl⟩, fun hn => absurd hb hn⟩
  · exact ⟨_, _, step_writeByte_hole h ha hb, step_readByte rfl ha (readByte_hole hb), fun hp => absurd hp hb,
      fun _ => rfl⟩

/-- A word access where no register is: the write is ignored and the read gives 0 (R53). -/
theorem unassignedWord_ignores_and_reads_zero {s : State} {a : Addr} {w : Word} {rest : List Input}
    (hreg : regAt a.toNat = none) (haccess : s.cfg.wordAccess a = true)
    (h : s.inputs = .writeWord a w :: .readWord a :: rest) :
    step s = .next { s with inputs := .readWord a :: rest } ∧
      step { s with inputs := .readWord a :: rest } =
        .next { s with inputs := rest, replies := .word 0 :: s.replies } := by
  constructor
  · rw [step_move h (by simp [StartsCommand, hreg]) haccess, applyInput, State.writeWord, hreg]
  · rw [step_readWord (s := { s with inputs := .readWord a :: rest }) rfl haccess, State.readWord, hreg]

/-- Settles O14: the offset is no register's, and the register window has no buffer byte. -/
theorem unassignedOffsetsReadZero : Obligations.UnassignedOffsetsReadZero := fun s _ _ _ hwin halign hne h =>
  unassignedWord_ignores_and_reads_zero (regAt_eq_none hne)
    (wordAccess_iff.mpr ⟨halign, isBufferByte_of_lt_regWindowEnd s.cfg hwin⟩) h

/-- Settles O15: every register's offset is in the register window, and the address is no buffer byte's. -/
theorem holesReadZeroAsWords : Obligations.HolesReadZeroAsWords := by
  intro s a w rest hout halign hhole h
  have hne (r : Reg) : a.toNat ≠ r.offset := by have := offset_lt_regWindowEnd r; omega
  rw [← isBufferByte_iff, Bool.not_eq_true] at hhole
  exact unassignedWord_ignores_and_reads_zero (regAt_eq_none hne) (wordAccess_iff.mpr ⟨halign, hhole⟩) h

/-! ## What a register reads as after a write -/

/-- The `v` bits of a register word from bit `k` on. -/
def fieldMask (k v : Nat) : Word := (BitVec.allOnes v).setWidth 32 <<< k

/-- A field stored from a written word reads back as the word's bits of the field. -/
theorem extractLsb'_shiftLeft_eq_and (w : Word) (k v : Nat) :
    (w.extractLsb' k v).setWidth 32 <<< k = w &&& fieldMask k v := by
  apply BitVec.eq_of_getLsbD_eq
  intro i hi
  by_cases hk : i < k
  · simp [fieldMask, hk]
  · have hadd : k + (i - k) = i := by omega
    simp [fieldMask, hk, hi, hadd, Bool.and_comm]

theorem extractLsb'_zero_eq_and (w : Word) (v : Nat) : (w.extractLsb' 0 v).setWidth 32 = w &&& fieldMask 0 v := by
  simpa using extractLsb'_shiftLeft_eq_and w 0 v

theorem setWidth_setWidth_eq_and (w : Word) (v : Nat) : (w.setWidth v).setWidth 32 = w &&& fieldMask 0 v := by
  have hlow : w.setWidth v = w.extractLsb' 0 v := BitVec.eq_of_getLsbD_eq fun i hi => by simp [hi]
  rw [hlow, extractLsb'_zero_eq_and]

theorem ofBool_getLsbD (w : Word) (k : Nat) : BitVec.ofBool (w.getLsbD k) = w.extractLsb' k 1 := by
  apply BitVec.eq_of_getLsbD_eq
  intro i hi
  simp [show i = 0 by omega]

theorem bitAt_getLsbD_eq_and (w : Word) (k : Nat) : bitAt (w.getLsbD k) k = w &&& fieldMask k 1 := by
  rw [bitAt, ofBool_getLsbD, extractLsb'_shiftLeft_eq_and]

/-- ARk_LO has no reserved bit (R36). -/
theorem loWord_withLo (a : AddrSlot) (w : Word) : (a.withLo w).loWord = w &&& 0xFFFFFFFF := by
  have hmask : fieldMask 24 8 ||| fieldMask 16 8 ||| fieldMask 8 8 ||| fieldMask 0 8 = 0xFFFFFFFF := by decide
  rw [← hmask]
  simp [AddrSlot.loWord, AddrSlot.withLo, extractLsb'_shiftLeft_eq_and, extractLsb'_zero_eq_and,
    BitVec.and_or_distrib_left]

/-- ARk_HI has the reserved bits 31:28 and 19 (R37). -/
theorem hiWord_withHi (a : AddrSlot) (w : Word) : (a.withHi w).hiWord = w &&& 0x0FF7FFFF := by
  have hmask : fieldMask 27 1 ||| fieldMask 26 1 ||| fieldMask 25 1 ||| fieldMask 24 1 ||| fieldMask 20 4 |||
      fieldMask 16 3 ||| fieldMask 8 8 ||| fieldMask 0 8 = 0x0FF7FFFF := by decide
  rw [← hmask]
  simp [-BitVec.getLsbD_eq_getElem, AddrSlot.hiWord, AddrSlot.withHi, bitAt_getLsbD_eq_and,
    extractLsb'_shiftLeft_eq_and, extractLsb'_zero_eq_and, BitVec.and_or_distrib_left]

theorem hiWord_withLo (a : AddrSlot) (w : Word) : (a.withLo w).hiWord = a.hiWord := rfl

theorem loWord_withHi (a : AddrSlot) (w : Word) : (a.withHi w).loWord = a.loWord := rfl

/-- A register's word after a write of the register: CMD and the read-only registers store nothing (R40, R54). -/
theorem regWord_setReg_same (s : State) (r : Reg) (w : Word) :
    (s.setReg r w).regWord r = if writable r = 0 then s.regWord r else w &&& writable r := by
  cases r with
  | ilen => exact setWidth_setWidth_eq_and w 16
  | crc => exact setWidth_setWidth_eq_and w 16
  | din => exact setWidth_setWidth_eq_and w 8
  | nrep => exact setWidth_setWidth_eq_and w 4
  | arLo k => simp [State.regWord, State.setReg, writable, loWord_withLo]
  | arHi k => simp [State.regWord, State.setReg, writable, hiWord_withHi]
  | _ => rfl

/-- A register word of a slot that replacing slot `k` leaves as it was there is as it was in every slot. -/
theorem apply_getElem_set (word : AddrSlot → Word) (ar : Vector AddrSlot 10) (x : AddrSlot) {k j : Fin 10}
    (hx : j = k → word x = word ar[k]) : word (ar.set k x)[j] = word ar[j] := by
  by_cases hjk : j = k
  · subst hjk
    simp [hx rfl]
  · have hkj : k.val ≠ j.val := fun hkj => hjk (Fin.ext hkj.symm)
    simp [Vector.getElem_set_ne, hkj]

/-- No two registers share a stored field, and FCS shows CRC's (R29). -/
theorem regWord_setReg_of_ne (s : State) {r r' : Reg} (w : Word) (hne : r' ≠ r) (hfcs : ¬ (r = .crc ∧ r' = .fcs)) :
    (s.setReg r w).regWord r' = s.regWord r' := by
  cases r with
  | ilen => cases r' with
    | ilen => exact absurd rfl hne
    | _ => rfl
  | crc => cases r' with
    | crc => exact absurd rfl hne
    | fcs => exact absurd ⟨rfl, rfl⟩ hfcs
    | _ => rfl
  | din => cases r' with
    | din => exact absurd rfl hne
    | _ => rfl
  | nrep => cases r' with
    | nrep => exact absurd rfl hne
    | _ => rfl
  | arLo k => cases r' with
    | arLo j => exact apply_getElem_set AddrSlot.loWord s.ar _ fun hjk => absurd (congrArg Reg.arLo hjk) hne
    | arHi j => exact apply_getElem_set AddrSlot.hiWord s.ar _ fun _ => hiWord_withLo s.ar[k] w
    | _ => rfl
  | arHi k => cases r' with
    | arLo j => exact apply_getElem_set AddrSlot.loWord s.ar _ fun _ => loWord_withHi s.ar[k] w
    | arHi j => exact apply_getElem_set AddrSlot.hiWord s.ar _ fun hjk => absurd (congrArg Reg.arHi hjk) hne
    | _ => rfl
  | _ => rfl

/-- Settles O10: the read finds what the write stored. -/
theorem registerReadsBackItsWritableBits : Obligations.RegisterReadsBackItsWritableBits := by
  refine ⟨fun s r w rest hr h => ?_, fun s rest h => step_readReg (r := .cmd) h⟩
  obtain ⟨-, -, hinputs, hreplies, -⟩ := setReg_surroundings { s with inputs := .readWord r.addr :: rest } r w
  refine ⟨_, _, step_writeReg h hr, step_readReg hinputs, rfl, ?_⟩
  rw [hreplies, regWord_setReg_same]
  rfl

/-- Settles O11: the written register's fields are in no other register but CRC's in FCS. -/
theorem registerWriteLeavesTheRest : Obligations.RegisterWriteLeavesTheRest := fun s r w rest hr h =>
  ⟨_, step_writeReg h hr, fun _ => regWord_setReg_of_ne { s with inputs := rest } w,
    setReg_surroundings { s with inputs := rest } r w⟩

end Sys2Proof.Machine
end

