-- ==== Sys2Proof/Proofs/Encoding.lean ====
section
/-! PROOF. Command words and program statements: decoding a word, encoding a command and the written-out opcode map are
one relation between words and commands, and LOAD is one byte write per index of its bytes. -/

namespace Sys2Proof

open Sys2Proof.Claims

/-! ## The fields of a command word -/

/-- OPCODE and RSVD are the whole word (R80). -/
theorem reservedField_append_opcodeField (w : Word) : reservedField w ++ opcodeField w = w :=
  (BitVec.extractLsb'_append_extractLsb'_eq_extractLsb' rfl).trans BitVec.extractLsb'_eq_self

/-- The laws of the commands, one by one, hold for every command. -/
theorem encoding_statement (i : Instr) : Laws.Encoding.Statement i := by
  cases i with
  | softReset => exact Laws.Encoding.softReset
  | crcInit => exact Laws.Encoding.crcInit
  | crcByte => exact Laws.Encoding.crcByte
  | crcBuf => exact Laws.Encoding.crcBuf
  | fcsCheck => exact Laws.Encoding.fcsCheck
  | revByte => exact Laws.Encoding.revByte
  | revBuf => exact Laws.Encoding.revBuf
  | hdlcEncode => exact Laws.Encoding.hdlcEncode
  | hdlcDecode => exact Laws.Encoding.hdlcDecode
  | addrEncode => exact Laws.Encoding.addrEncode
  | addrDecode => exact Laws.Encoding.addrDecode

/-- A word is a command's exactly when its RSVD is 0 and its OPCODE is the command's (R80, R83). -/
theorem eq_encode_iff {w : Word} {i : Instr} : w = encode i ↔ reservedField w = 0 ∧ opcodeField w = i.opcode := by
  constructor
  · rintro rfl
    obtain ⟨-, hreserved, hopcode⟩ := encoding_statement i
    exact ⟨hreserved, hopcode⟩
  · rintro ⟨hreserved, hopcode⟩
    rw [← reservedField_append_opcodeField w, hreserved, hopcode, encode]

/-! ## Decoding -/

/-- The model's two readings of the opcode map agree (R83). -/
theorem decodeOpcode_eq_some_iff {op : BitVec 8} {i : Instr} : decodeOpcode op = some i ↔ op = i.opcode := by
  constructor
  · intro h
    unfold decodeOpcode at h
    split at h <;> cases h
    all_goals exact BitVec.eq_of_toNat_eq ‹_›
  · rintro rfl
    cases i <;> rfl

theorem decode_of_reserved {w : Word} (h : reservedField w ≠ 0) : decode w = .error .reservedBits :=
  if_neg h

theorem decode_of_unassigned {w : Word} (h : reservedField w = 0) (hop : decodeOpcode (opcodeField w) = none) :
    decode w = .error .unassignedOpcode := by
  rw [decode, if_pos h, hop]

theorem decode_of_assigned {w : Word} {i : Instr} (h : reservedField w = 0)
    (hop : decodeOpcode (opcodeField w) = some i) : decode w = .ok i := by
  rw [decode, if_pos h, hop]

/-- Decoding inverts encoding: each of R84's three outcomes is compared with the fields of the command's word. -/
theorem decode_eq_ok_iff {w : Word} {i : Instr} : decode w = .ok i ↔ w = encode i := by
  rw [eq_encode_iff, ← decodeOpcode_eq_some_iff]
  by_cases hreserved : reservedField w = 0
  · cases hop : decodeOpcode (opcodeField w) with
    | none => simp [decode_of_unassigned hreserved hop]
    | some j => simp [decode_of_assigned hreserved hop, hreserved]
  · simp only [decode_of_reserved hreserved, hreserved, false_and, reduceCtorEq]

@[simp] theorem decode_encode (i : Instr) : decode (encode i) = .ok i :=
  decode_eq_ok_iff.mpr rfl

/-- Settles O2: a word decodes to a command exactly when it is that command's word. -/
theorem encodingAndDecodingAgree : Obligations.EncodingAndDecodingAgree := by
  refine ⟨fun i _ => decode_encode i, fun w i h => ?_⟩
  obtain ⟨hwf, -, -⟩ := encoding_statement i
  exact ⟨hwf, (decode_eq_ok_iff.mp h).symm⟩

/-! ## The written-out opcode map -/

theorem encode_mem_commandWords (i : Instr) : (encode i, i) ∈ commandWords := by
  cases i <;> decide

theorem eq_encode_of_mem_commandWords : ∀ p ∈ commandWords, p.1 = encode p.2 := by decide

theorem mem_commandWords_iff {w : Word} {i : Instr} : (w, i) ∈ commandWords ↔ w = encode i :=
  ⟨eq_encode_of_mem_commandWords (w, i), fun h => h ▸ encode_mem_commandWords i⟩

/-- Settles O1: the map's rows are the commands' words, and a word that decodes to no command is an error. -/
theorem decodeFollowsTheOpcodeMap : Obligations.DecodeFollowsTheOpcodeMap := by
  intro w
  have hrow (i : Instr) : decode w = .ok i ↔ (w, i) ∈ commandWords := decode_eq_ok_iff.trans mem_commandWords_iff.symm
  refine ⟨hrow, fun hnone => ?_⟩
  cases hdecode : decode w with
  | ok i => exact absurd ((hrow i).mp hdecode) (hnone i)
  | error e => exact ⟨e, rfl⟩

/-- Settles O3: the first five words are their commands' words, the last two fail R84's two checks. -/
theorem writtenOutWordsDecode : Obligations.WrittenOutWordsDecode :=
  ⟨decode_encode .softReset, decode_encode .fcsCheck, decode_encode .revBuf, decode_encode .hdlcDecode,
    decode_encode .addrEncode, decode_of_reserved (by decide), decode_of_unassigned rfl rfl⟩

/-! ## LOAD -/

theorem loadInputs_eq_mapIdx (i : Nat) (bs : List Byte) :
    loadInputs i bs = bs.mapIdx fun j b => .writeByte (Buffer.ibuf.addr (i + j)) b := by
  induction bs generalizing i with
  | nil => rfl
  | cons b bs ih => simp [loadInputs, ih, List.mapIdx_cons, Nat.add_assoc, Nat.add_comm 1]

/-- Settles O5: LOAD maps each byte with its index to one byte write. -/
theorem loadIsByteWritesInOrder : Obligations.LoadIsByteWritesInOrder := by
  intro i bs
  rw [Stmt.inputs, loadInputs_eq_mapIdx]
  refine ⟨List.length_mapIdx, fun j hj => ?_⟩
  simp [hj, Buffer.addr, Nat.add_assoc]

end Sys2Proof
end

