-- ==== Sys2Proof/Proofs/Address.lean ====
section
/-! PROOF. The address field. First one group: the seven bytes a slot encodes to, the slot seven bytes decode to, and
that a valid slot comes back. Then ADDR_ENCODE, byte by byte of its field, and ADDR_DECODE, whose walk is followed over
the groups whose extension bit is 0. -/

namespace Sys2Proof.Machine

open Sys2Proof Sys2Proof.Claims

/-! ## The two ends of a command, from its result -/

theorem raises_of_error {i : Instr} {s : State} {code : StatusCode} (h : commandResult s i = .error code) :
    Raises i i.opcode code s := by
  rw [Raises, exec_eq_finish, h]
  rfl

theorem exec_of_ok {i : Instr} {s : State} {a : CommandOutput i} (h : commandResult s i = .ok a) :
    exec i s = .next (complete i.opcode (commitOutput s i a)) := by
  rw [exec_eq_finish, h]
  rfl

/-! ## The seven bytes of a slot -/

theorem getD_encodeAddress_char (a : AddrSlot) (ext : Bool) (i : Fin 6) :
    (encodeAddress a ext).getD i.val 0 = a.sentChar i <<< 1 := by
  fin_cases i <;> rfl

theorem getD_encodeAddress_ssid (a : AddrSlot) (ext : Bool) : (encodeAddress a ext).getD 6 0 = a.ssidByte ext := rfl

/-- The shift keeps 8 bits, and a padding space becomes 0x40 (R101). -/
theorem toNat_sentChar_shiftLeft (a : AddrSlot) (i : Fin 6) :
    (a.sentChar i <<< 1).toNat = if i.val < a.clen.toNat then 2 * a.call[i].toNat % 256 else 0x40 := by
  unfold AddrSlot.sentChar
  split
  · rw [BitVec.toNat_shiftLeft, Nat.shiftLeft_eq, Nat.mul_comm]
  · rfl

theorem getLsbD_ssidByte (a : AddrSlot) (ext : Bool) {j : Nat} (hj : j < 8) :
    (a.ssidByte ext).getLsbD (7 - j) =
      [a.ch, a.res6, a.res5, a.ssid.getLsbD 3, a.ssid.getLsbD 2, a.ssid.getLsbD 1, a.ssid.getLsbD 0, ext].getD j
        false :=
  getLsbD_byteOf _ _ _ _ _ _ _ _ hj

theorem ssidByte_ch (a : AddrSlot) (ext : Bool) : (a.ssidByte ext).getLsbD 7 = a.ch :=
  getLsbD_ssidByte a ext (j := 0) (by decide)

theorem ssidByte_res6 (a : AddrSlot) (ext : Bool) : (a.ssidByte ext).getLsbD 6 = a.res6 :=
  getLsbD_ssidByte a ext (j := 1) (by decide)

theorem ssidByte_res5 (a : AddrSlot) (ext : Bool) : (a.ssidByte ext).getLsbD 5 = a.res5 :=
  getLsbD_ssidByte a ext (j := 2) (by decide)

theorem ssidByte_ext (a : AddrSlot) (ext : Bool) : (a.ssidByte ext).getLsbD 0 = ext :=
  getLsbD_ssidByte a ext (j := 7) (by decide)

theorem ssidByte_ssid (a : AddrSlot) (ext : Bool) {j : Nat} (hj : j < 4) :
    (a.ssidByte ext).getLsbD (j + 1) = a.ssid.getLsbD j := by
  have hbit := getLsbD_ssidByte a ext (j := 6 - j) (by omega)
  rw [show 7 - (6 - j) = j + 1 by omega] at hbit
  rw [hbit]
  interval_cases j <;> rfl

/-! ## The slot of seven bytes -/

theorem getElem_inputGroup (s : State) (k : Nat) {i : Nat} (hi : i < 7) : (inputGroup s k)[i] = s.ibuf (7 * k + i) := by
  interval_cases i <;> rfl

theorem decodeAddress_call (g : Vector Byte 7) (i : Fin 6) : (decodeAddress g).call[i] = g[i.val] >>> 1 := by
  fin_cases i <;> rfl

theorem decodeAddress_ch (g : Vector Byte 7) : (decodeAddress g).ch = g[6].getLsbD 7 := rfl
theorem decodeAddress_res5 (g : Vector Byte 7) : (decodeAddress g).res5 = g[6].getLsbD 5 := rfl
theorem decodeAddress_res6 (g : Vector Byte 7) : (decodeAddress g).res6 = g[6].getLsbD 6 := rfl
theorem decodeAddress_ext (g : Vector Byte 7) : (decodeAddress g).ext = g[6].getLsbD 0 := rfl

theorem decodeAddress_ssid (g : Vector Byte 7) {j : Nat} (hj : j < 4) :
    (decodeAddress g).ssid.getLsbD j = g[6].getLsbD (j + 1) := by
  simp [decodeAddress, hj, Nat.add_comm]

/-- `n` is the length that trimming trailing spaces leaves of the six characters (R102). -/
structure TrimsTo (call : Vector Byte 6) (n : Nat) : Prop where
  le_six : n ≤ 6
  space_from : ∀ i : Fin 6, n ≤ i.val → call[i] = space
  last_ne_space : ∀ i : Fin 6, i.val + 1 = n → call[i] ≠ space

/-- There is one such length: of two, the longer would end in a space. -/
theorem TrimsTo.eq {call : Vector Byte 6} {m n : Nat} (hm : TrimsTo call m) (hn : TrimsTo call n) : m = n := by
  have not_lt {m n : Nat} (hm : TrimsTo call m) (hn : TrimsTo call n) : ¬ m < n := fun h =>
    have hlast : n - 1 < 6 := by have := hn.le_six; omega
    hn.last_ne_space ⟨n - 1, hlast⟩ (by simp only; omega) (hm.space_from ⟨n - 1, hlast⟩ (by simp only; omega))
  exact Nat.le_antisymm (Nat.not_lt.mp (not_lt hn hm)) (Nat.not_lt.mp (not_lt hm hn))

theorem trimsTo_trimmedLength (call : Vector Byte 6) : TrimsTo call (trimmedLength call.toList 0 0) := by
  obtain ⟨hle, -, hspace, hlast⟩ := trimmedLength_spec call.toList 0 0 le_rfl
  have hget (i : Fin 6) : call.toList.getD i.val 0 = call[i] := by simp
  refine ⟨by simpa using hle, fun i hi => ?_, fun i hi => ?_⟩
  · rw [← hget]
    exact hspace i (by simp) (by omega)
  · obtain hzero | ⟨j, -, hj, hne⟩ := hlast
    · omega
    · rw [← hget, show i.val = j by omega]
      exact hne

/-- CLEN has room for the trimmed length of six characters. -/
theorem decodeAddress_trimsTo (g : Vector Byte 7) :
    TrimsTo (decodeAddress g).call (decodeAddress g).clen.toNat := by
  have h := trimsTo_trimmedLength (decodeAddress g).call
  have hclen : (decodeAddress g).clen.toNat = trimmedLength (decodeAddress g).call.toList 0 0 :=
    BitVec.toNat_ofNat _ _ |>.trans (Nat.mod_eq_of_lt (Nat.lt_of_le_of_lt h.le_six (by decide)))
  rwa [hclen]

/-- Settles O55: the characters byte by byte, CLEN by what trimming leaves, the other fields by bits of the last
byte. -/
theorem groupDecodesByItsRule : Obligations.GroupDecodesByItsRule := by
  intro g
  obtain ⟨hle, hspace, hlast⟩ := decodeAddress_trimsTo g
  refine ⟨fun i => ?_, hle, hspace, hlast, fun j hj => decodeAddress_ssid g hj, rfl, rfl, rfl, rfl⟩
  rw [decodeAddress_call, BitVec.toNat_ushiftRight, Nat.shiftRight_eq_div_pow]

/-! ## A valid slot comes back -/

/-- A valid slot's CLEN is what trimming leaves, since its characters below CLEN are above the space (R121). -/
theorem trimsTo_of_valid {a : AddrSlot} (h : ValidSlot a) : TrimsTo a.call a.clen.toNat := by
  obtain ⟨hle, hchar, hspace⟩ := h
  refine ⟨hle, hspace, fun i hi heq => ?_⟩
  obtain ⟨hlow, -⟩ := hchar i (by omega)
  rw [heq] at hlow
  exact absurd hlow (by decide)

theorem clen_ne_seven_of_valid {a : AddrSlot} (h : ValidSlot a) : a.clen ≠ 7 := fun h7 =>
  absurd (trimsTo_of_valid h).le_six (by rw [h7]; decide)

/-- A valid slot sends its characters as they stand, and they have seven bits (R121). -/
theorem sentChar_shift_of_valid {a : AddrSlot} (h : ValidSlot a) (i : Fin 6) :
    a.sentChar i <<< 1 >>> 1 = a.call[i] := by
  obtain ⟨-, hchar, hspace⟩ := h
  unfold AddrSlot.sentChar
  split
  · next hi =>
    obtain ⟨-, hhigh⟩ := hchar i hi
    apply BitVec.eq_of_toNat_eq
    simp only [BitVec.toNat_ushiftRight, BitVec.toNat_shiftLeft, Nat.shiftLeft_eq, Nat.shiftRight_eq_div_pow]
    omega
  · next hi =>
    rw [hspace i (by omega)]
    rfl

theorem addrSlot_eq {a b : AddrSlot} (hcall : a.call = b.call) (hclen : a.clen = b.clen) (hssid : a.ssid = b.ssid)
    (hch : a.ch = b.ch) (hres5 : a.res5 = b.res5) (hres6 : a.res6 = b.res6) (hext : a.ext = b.ext) : a = b := by
  cases a
  cases b
  simp_all

/-- Decoding the group of a valid slot gives the slot back, with the extension bit that was sent (R121). -/
theorem decodeAddress_encodeAddress {a : AddrSlot} (h : ValidSlot a) {ext : Bool} {g : Vector Byte 7}
    (hg : ∀ i, (hi : i < 7) → g[i] = (encodeAddress a ext).getD i 0) : decodeAddress g = { a with ext := ext } := by
  have hssid : g[6] = a.ssidByte ext := (hg 6 (by decide)).trans (getD_encodeAddress_ssid a ext)
  have hcall : (decodeAddress g).call = a.call := Vector.ext fun i hi => calc
      (decodeAddress g).call[i] = g[i] >>> 1 := decodeAddress_call g ⟨i, hi⟩
      _ = a.sentChar ⟨i, hi⟩ <<< 1 >>> 1 := by rw [hg i (by omega), getD_encodeAddress_char a ext ⟨i, hi⟩]
      _ = a.call[i] := sentChar_shift_of_valid h ⟨i, hi⟩
  refine addrSlot_eq hcall ?_ ?_ ?_ ?_ ?_ ?_
  · exact BitVec.eq_of_toNat_eq ((hcall ▸ decodeAddress_trimsTo g).eq (trimsTo_of_valid h))
  · exact BitVec.eq_of_getLsbD_eq fun j hj => by rw [decodeAddress_ssid g hj, hssid, ssidByte_ssid a ext hj]
  · rw [decodeAddress_ch, hssid, ssidByte_ch]
  · rw [decodeAddress_res5, hssid, ssidByte_res5]
  · rw [decodeAddress_res6, hssid, ssidByte_res6]
  · rw [decodeAddress_ext, hssid, ssidByte_ext]

/-! ## ADDR_ENCODE -/

/-- Of the used slots, one has CLEN above 6 exactly when one has CLEN 7 (R110). -/
theorem any_usedSlots_iff (s : State) {r : Nat} (hr : r ≤ 8) :
    (usedSlots s r).any (fun a => 6 < a.clen.toNat) = true ↔ ∃ k : Fin 10, k.val ≤ 1 + r ∧ s.ar[k].clen = 7 := by
  have hclen (a : AddrSlot) : 6 < a.clen.toNat ↔ a.clen = 7 := by bv_omega
  simp only [List.any_eq_true, decide_eq_true_eq, hclen]
  constructor
  · rintro ⟨a, ha, h7⟩
    obtain ⟨k, hk, rfl⟩ := List.getElem_of_mem ha
    rw [length_usedSlots s hr] at hk
    rw [getElem_usedSlots s r k (by omega) hk] at h7
    exact ⟨⟨k, by omega⟩, by simp only; omega, h7⟩
  · rintro ⟨k, hk, h7⟩
    refine ⟨_, List.getElem_mem (l := usedSlots s r) (n := k) (by rw [length_usedSlots s hr]; omega), ?_⟩
    rw [getElem_usedSlots s r k k.isLt (by omega)]
    exact h7

theorem addrEncodeResult_tooManyRepeaters {s : State} (hr : 8 < s.nrep.toNat) :
    addrEncodeResult s = .error .tooManyRepeaters :=
  if_pos hr

theorem addrEncodeResult_invalidLength {s : State} (hr : s.nrep.toNat ≤ 8) {k : Fin 10}
    (hk : k.val ≤ 1 + s.nrep.toNat) (h7 : s.ar[k].clen = 7) : addrEncodeResult s = .error .invalidCallsignLength := by
  have hany := (any_usedSlots_iff s hr).mpr ⟨k, hk, h7⟩
  rw [addrEncodeResult, if_neg (by omega), if_pos hany]

/-- The last check cannot fail with legal capacities (R110). -/
theorem addrEncodeResult_ok {s : State} (hcfg : s.cfg.wellFormed = true) (hr : s.nrep.toNat ≤ 8)
    (hclen : ∀ k : Fin 10, k.val ≤ 1 + s.nrep.toNat → s.ar[k].clen ≠ 7) :
    addrEncodeResult s = .ok (encodeField (usedSlots s s.nrep.toNat)) := by
  have hany : ¬ (usedSlots s s.nrep.toNat).any (fun a => 6 < a.clen.toNat) = true := fun h =>
    have ⟨k, hk, h7⟩ := (any_usedSlots_iff s hr).mp h
    hclen k hk h7
  have hfits : fitsObuf s (fieldLength s.nrep.toNat) = true := by
    obtain ⟨-, -, hcap, -⟩ := (config_wellFormed_iff _).mp hcfg
    exact decide_eq_true (by rw [fieldLength]; omega)
  rw [addrEncodeResult, if_neg (by omega), if_neg hany, if_pos hfits]

/-- The state after ADDR_ENCODE has stored the field of the used slots (R110). -/
def addrEncoded (s : State) : State :=
  complete 0x40 { storeObuf (encodeField (usedSlots s s.nrep.toNat)) s with
    olen := BitVec.ofNat 16 (fieldLength s.nrep.toNat)
    hlen := BitVec.ofNat 8 (fieldLength s.nrep.toNat) }

theorem length_encodeField_usedSlots (s : State) {r : Nat} (hr : r ≤ 8) :
    (encodeField (usedSlots s r)).length = fieldLength r := by
  rw [length_encodeField, length_usedSlots s hr, fieldLength]
  omega

theorem exec_addrEncode_ok {s : State} (hcfg : s.cfg.wellFormed = true) (hr : s.nrep.toNat ≤ 8)
    (hclen : ∀ k : Fin 10, k.val ≤ 1 + s.nrep.toNat → s.ar[k].clen ≠ 7) :
    exec .addrEncode s = .next (addrEncoded s) := by
  have hok : commandResult s .addrEncode = .ok _ := addrEncodeResult_ok hcfg hr hclen
  rw [exec_of_ok hok, commitOutput, length_encodeField_usedSlots s hr]
  rfl

/-- ADDR_ENCODE ends OK only by storing the field of at most ten slots. -/
theorem addrEncode_status_ok {s t : State} (h : exec .addrEncode s = .next t) (hok : t.status.code = .ok) :
    s.nrep.toNat ≤ 8 ∧ t = addrEncoded s := by
  obtain ⟨c, hc, rfl⟩ | ⟨field, hr, rfl, hlen, -, rfl⟩ := execAddrEncode_next h
  · rw [raiseStatus_status] at hok
    subst hok
    simp at hc
  · rw [hlen]
    exact ⟨hr, rfl⟩

/-- Byte `i` of group `k` in OBUF after ADDR_ENCODE (R103, R110). -/
theorem obuf_addrEncoded {s : State} (hr : s.nrep.toNat ≤ 8) {k : Fin 10} (hk : k.val ≤ 1 + s.nrep.toNat) {i : Nat}
    (hi : i < 7) :
    (addrEncoded s).obuf (7 * k.val + i) = (encodeAddress s.ar[k] (decide (k.val = 1 + s.nrep.toNat))).getD i 0 := by
  have hslots : k.val < (usedSlots s s.nrep.toNat).length := by rw [length_usedSlots s hr]; omega
  have hlast : decide (k.val + 1 = (usedSlots s s.nrep.toNat).length) = decide (k.val = 1 + s.nrep.toNat) := by
    rw [length_usedSlots s hr]
    exact decide_eq_decide.mpr (by omega)
  calc (addrEncoded s).obuf (7 * k.val + i)
      = (encodeField (usedSlots s s.nrep.toNat)).getD (7 * k.val + i) 0 :=
        obuf_storeObuf s _ (by rw [length_encodeField]; omega)
    _ = (encodeAddress s.ar[k] (decide (k.val = 1 + s.nrep.toNat))).getD i 0 := by
        rw [getD_encodeField _ k.val hslots i hi, hlast, getElem_usedSlots s _ k.val k.isLt (by omega)]
        rfl

theorem obuf_addrEncoded_char {s : State} (hr : s.nrep.toNat ≤ 8) {k : Fin 10} (hk : k.val ≤ 1 + s.nrep.toNat)
    (i : Fin 6) : (addrEncoded s).obuf (7 * k.val + i.val) = s.ar[k].sentChar i <<< 1 := by
  rw [obuf_addrEncoded hr hk (by omega), getD_encodeAddress_char]

theorem obuf_addrEncoded_ssid {s : State} (hr : s.nrep.toNat ≤ 8) {k : Fin 10} (hk : k.val ≤ 1 + s.nrep.toNat) :
    (addrEncoded s).obuf (7 * k.val + 6) = s.ar[k].ssidByte (decide (k.val = 1 + s.nrep.toNat)) :=
  (obuf_addrEncoded hr hk (by decide)).trans (getD_encodeAddress_ssid _ _)

theorem addrEncoded_onlyObufBelow {s : State} (hr : s.nrep.toNat ≤ 8) :
    OnlyObufBelow (fieldLength s.nrep.toNat) s (addrEncoded s) := fun a ha =>
  (byteAt_storeObuf s _ a).trans (if_neg (by rw [length_encodeField_usedSlots s hr]; unfold obufBase; omega))

/-- Settles O53: one lemma for each way the checks end; the field that is stored is read group by group. -/
theorem addrEncodeWritesTheField : Obligations.AddrEncodeWritesTheField := by
  refine ⟨decode_encode .addrEncode, fun s hcfg => ⟨fun hr => ?_, fun k hr hk h7 => ?_, fun hr hclen => ?_⟩⟩
  · exact raises_of_error (addrEncodeResult_tooManyRepeaters hr)
  · exact raises_of_error (addrEncodeResult_invalidLength hr hk h7)
  · refine ⟨addrEncoded s, exec_addrEncode_ok hcfg hr hclen, rfl, fun k hk => ?_, addrEncoded_onlyObufBelow hr⟩
    rw [obuf_addrEncoded_ssid hr hk]
    refine ⟨fun i => ?_, ssidByte_ch _ _, ssidByte_res6 _ _, ssidByte_res5 _ _, fun j hj => ssidByte_ssid _ _ hj, ?_⟩
    · rw [obuf_addrEncoded_char hr hk, toNat_sentChar_shiftLeft]
    · rw [ssidByte_ext, decide_eq_true_eq]

/-- Settles O54: the extension bit sent with a group says whether it is the last. -/
theorem extensionBitMarksTheLastGroup : Obligations.ExtensionBitMarksTheLastGroup := by
  intro s t h hok k hk
  obtain ⟨hr, rfl⟩ := addrEncode_status_ok h hok
  rw [obuf_addrEncoded_ssid hr (k := ⟨k, by omega⟩) hk, ssidByte_ext, decide_eq_true_eq]

/-! ## ADDR_DECODE -/

/-- Group `k` lies wholly in the input, and its extension bit is 0. -/
def ContinuesAt (s : State) (k : Nat) : Prop := 7 * (k + 1) ≤ s.ilen.toNat ∧ groupExt s k = false

/-- Group `k` lies wholly in the input, and its extension bit is 1. -/
def EndsAt (s : State) (k : Nat) : Prop := 7 * (k + 1) ≤ s.ilen.toNat ∧ groupExt s k = true

/-- The `n` groups from group `k` on, decoded. -/
def decodedGroups (s : State) (k n : Nat) : List AddrSlot :=
  (List.range' k n).map fun j => decodeAddress (inputGroup s j)

theorem walkRepeaters_truncated {s : State} {j : Nat} (h : s.ilen.toNat < 7 * (j + 2)) (left : Nat) :
    walkRepeaters s (left + 1) j = .error .truncatedAddressField :=
  if_pos h

theorem walkRepeaters_ends {s : State} {j : Nat} (h : EndsAt s (j + 1)) (left : Nat) :
    walkRepeaters s (left + 1) j = .ok [decodeAddress (inputGroup s (j + 1))] := by
  obtain ⟨hlen, hext⟩ := h
  rw [walkRepeaters, if_neg (by omega)]
  exact if_pos hext

theorem walkRepeaters_continues {s : State} {j : Nat} (h : ContinuesAt s (j + 1)) (left : Nat) :
    walkRepeaters s (left + 1) j =
      (walkRepeaters s left (j + 1)).map (decodeAddress (inputGroup s (j + 1)) :: ·) := by
  obtain ⟨hlen, hext⟩ := h
  rw [walkRepeaters, if_neg (by omega)]
  refine (if_neg (Bool.eq_false_iff.mp hext)).trans ?_
  cases walkRepeaters s left (j + 1) <;> rfl

/-- The walk over `d` groups that do not end the field. -/
theorem walkRepeaters_skip {s : State} (d left j : Nat) (h : ∀ k, j < k → k ≤ j + d → ContinuesAt s k) :
    walkRepeaters s (left + d) j = (walkRepeaters s left (j + d)).map (decodedGroups s (j + 1) d ++ ·) := by
  induction d generalizing j with
  | zero => cases walkRepeaters s left j <;> simp [decodedGroups, Except.map]
  | succ d ih =>
    have hnext : ∀ k, j + 1 < k → k ≤ j + 1 + d → ContinuesAt s k := fun k h1 h2 => h k (by omega) (by omega)
    rw [← Nat.add_assoc, walkRepeaters_continues (h (j + 1) (by omega) (by omega)), ih (j + 1) hnext,
      show j + 1 + d = j + (d + 1) by omega]
    cases walkRepeaters s left (j + (d + 1)) <;> rfl

/-- The source is read like one more repeater: the walk of R120 is the walk from group 1 on over at most nine groups. -/
theorem addrDecodeResult_eq_walk {s : State} (hread : Readable s) :
    addrDecodeResult s = (walkRepeaters s 9 0).map fun ps =>
      { dst := decodeAddress (inputGroup s 0), src := decodeAddress (inputGroup s 1), repeaters := ps.tail } := by
  rw [addrDecodeResult, if_neg (Nat.not_lt.mpr hread)]
  by_cases hlen : s.ilen.toNat < 14
  · rw [if_pos hlen, walkRepeaters_truncated hlen]
    rfl
  · rw [if_neg hlen]
    cases hext : groupExt s 1 with
    | true =>
      rw [walkRepeaters_ends (j := 0) ⟨by omega, hext⟩]
      exact if_pos hext
    | false =>
      rw [walkRepeaters_continues (j := 0) ⟨by omega, hext⟩]
      refine (if_neg (Bool.eq_false_iff.mp hext)).trans ?_
      cases walkRepeaters s 8 1 <;> rfl

/-- The walk of ADDR_DECODE after the first `d` groups from the source on, none of which ends the field. -/
theorem addrDecodeResult_after_groups {s : State} (hread : Readable s) {left d : Nat} (hd : left + d = 9)
    (hcont : ∀ k, 1 ≤ k → k ≤ d → ContinuesAt s k) :
    addrDecodeResult s = (walkRepeaters s left d).map fun ps =>
      { dst := decodeAddress (inputGroup s 0)
        src := decodeAddress (inputGroup s 1)
        repeaters := (decodedGroups s 1 d ++ ps).tail } := by
  have hskip := walkRepeaters_skip d left 0 fun k h1 h2 => hcont k h1 (by omega)
  rw [Nat.zero_add d] at hskip
  rw [addrDecodeResult_eq_walk hread, ← hd, hskip]
  cases walkRepeaters s left d <;> rfl

theorem addrDecodeResult_unreadable {s : State} (h : ¬ Readable s) : addrDecodeResult s = .error .lengthOutOfRange :=
  if_pos (Nat.not_le.mp h)

/-- Groups 1 to `d` do not end the field, and the input ends before group `d + 1` is whole (R120). -/
theorem addrDecodeResult_truncated {s : State} (hread : Readable s) {d : Nat} (hd : d ≤ 8)
    (hcont : ∀ k, 1 ≤ k → k ≤ d → ContinuesAt s k) (hlen : s.ilen.toNat < 14 + 7 * d) :
    addrDecodeResult s = .error .truncatedAddressField := by
  rw [addrDecodeResult_after_groups hread (left := 8 - d + 1) (by omega) hcont, walkRepeaters_truncated (by omega)]
  rfl

theorem addrDecodeResult_tooManyRepeaters {s : State} (hread : Readable s)
    (hcont : ∀ k, 1 ≤ k → k ≤ 9 → ContinuesAt s k) : addrDecodeResult s = .error .tooManyRepeaters := by
  rw [addrDecodeResult_after_groups hread (Nat.zero_add 9) hcont]
  rfl

theorem addrDecodeResult_ok {s : State} (hread : Readable s) {r : Nat} (hr : r ≤ 8)
    (hcont : ∀ k, 1 ≤ k → k ≤ r → ContinuesAt s k) (hend : EndsAt s (r + 1)) :
    addrDecodeResult s = .ok
      { dst := decodeAddress (inputGroup s 0)
        src := decodeAddress (inputGroup s 1)
        repeaters := decodedGroups s 2 r } := by
  have hgroups : decodedGroups s 1 r ++ [decodeAddress (inputGroup s (r + 1))] = decodedGroups s 1 (r + 1) := by
    simp [decodedGroups, List.range'_concat, Nat.add_comm]
  rw [addrDecodeResult_after_groups hread (left := 8 - r + 1) (by omega) hcont, walkRepeaters_ends hend, Except.map,
    hgroups]
  rfl

/-- What ADDR_DECODE writes when the field ends with group `r + 1` (R120). -/
theorem exec_addrDecode_ok {s : State} (hread : Readable s) {r : Nat} (hr : r ≤ 8)
    (hcont : ∀ k, 1 ≤ k → k ≤ r → ContinuesAt s k) (hend : EndsAt s (r + 1)) :
    exec .addrDecode s = .next
      { s with
        ar := setSlots s.ar 0 (decodedGroups s 0 (r + 2))
        nrep := BitVec.ofNat 4 r
        hdr := { cr := (s.ibuf 6).getLsbD 7, srcCr := (s.ibuf 13).getLsbD 7 }
        hlen := BitVec.ofNat 8 (14 + 7 * r)
        status := { code := .ok, lastOpcode := 0x41 } } := by
  have hok : commandResult s .addrDecode = .ok _ := addrDecodeResult_ok hread hr hcont hend
  have hlength : (decodedGroups s 2 r).length = r := by simp [decodedGroups]
  rw [exec_of_ok hok, commitOutput, hlength]
  rfl

/-- The slots after the decoded groups are put into them from AR[0] on (R120). -/
theorem getElem_setSlots_decodedGroups (s : State) (r : Nat) (k : Fin 10) :
    (setSlots s.ar 0 (decodedGroups s 0 (r + 2)))[k] =
      if k.val ≤ 1 + r then decodeAddress (inputGroup s k.val) else s.ar[k] := by
  have hlength : (decodedGroups s 0 (r + 2)).length = r + 2 := by simp [decodedGroups]
  refine (getElem_setSlots s.ar 0 _ k.val k.isLt).trans ?_
  by_cases hk : k.val ≤ 1 + r
  · rw [dif_pos (by omega), if_pos hk]
    simp [decodedGroups]
  · rw [dif_neg (by omega), if_neg hk]
    rfl

/-- Settles O56: one lemma for each way the walk ends. -/
theorem addrDecodeWalksTheGroups : Obligations.AddrDecodeWalksTheGroups := by
  refine ⟨decode_encode .addrDecode, fun s => ⟨?_, ?_, ?_, ?_, ?_⟩⟩
  · exact fun hread => raises_of_error (addrDecodeResult_unreadable hread)
  · exact fun hread hlen => raises_of_error (addrDecodeResult_truncated hread (Nat.zero_le 8) (by omega) hlen)
  · exact fun r hread hr hlow hhigh hext => raises_of_error <|
      addrDecodeResult_truncated hread (d := 1 + r) (by omega) (fun k h1 h2 => ⟨by omega, hext k h1 h2⟩) (by omega)
  · exact fun hread hlen hext => raises_of_error <|
      addrDecodeResult_tooManyRepeaters hread fun k h1 h2 => ⟨by omega, hext k h1 h2⟩
  · intro r hread hr hlen hext hend
    rw [Nat.add_comm] at hend
    have hexec := exec_addrDecode_ok hread hr (fun k h1 h2 => ⟨by omega, hext k h1 h2⟩) ⟨by omega, hend⟩
    exact ⟨_, hexec, rfl, getElem_setSlots_decodedGroups s r⟩

/-! ## The round trip -/

/-- Settles O57: each group that is decoded is the one a valid slot was encoded to, so the walk ends where the last
slot was put. -/
theorem addressFieldRoundTrip : Obligations.AddressFieldRoundTrip := by
  intro s t u hcfg hr hvalid henc hucfg hulen hcopy
  have hok := exec_addrEncode_ok hcfg hr fun k hk => clen_ne_seven_of_valid (hvalid k hk)
  obtain rfl : addrEncoded s = t := Host.Outcome.next.inj (hok.symm.trans henc)
  have hgroup (k : Fin 10) (hk : k.val ≤ 1 + s.nrep.toNat) :
      decodeAddress (inputGroup u k.val) = { s.ar[k] with ext := decide (k.val = 1 + s.nrep.toNat) } :=
    decodeAddress_encodeAddress (hvalid k hk) fun i hi => by
      rw [getElem_inputGroup u k.val hi, hcopy _ (by omega), obuf_addrEncoded hr hk hi]
  have hext (k : Nat) (hk : k ≤ 1 + s.nrep.toNat) : groupExt u k = decide (k = 1 + s.nrep.toNat) :=
    congrArg AddrSlot.ext (hgroup ⟨k, by omega⟩ hk)
  have hread : Readable u := by
    obtain ⟨hcap, -⟩ := (config_wellFormed_iff _).mp hcfg
    rw [Readable, hulen, hucfg]
    omega
  have hexec := exec_addrDecode_ok hread hr
    (fun k h1 h2 => ⟨by omega, (hext k (by omega)).trans (decide_eq_false (by omega))⟩)
    ⟨by omega, (hext _ (by omega)).trans (decide_eq_true (Nat.add_comm _ 1))⟩
  refine ⟨_, hexec, rfl, by simp, ?_, fun k hk => ?_⟩
  · have hcr := congrArg AddrSlot.ch (hgroup 0 (by simp))
    have hsrcCr := congrArg AddrSlot.ch (hgroup 1 (by simp))
    exact congrArg₂ Hdr.mk hcr hsrcCr
  · exact (getElem_setSlots_decodedGroups u _ k).trans ((if_pos hk).trans (hgroup k hk))

end Sys2Proof.Machine
end

/-! PROOF. Bit reversal. REV_BYTE is read off its one end. REV_BUF has one lemma for each way its checks end; the state
it leaves has a name, and OBUF is read in it byte by byte. -/

namespace Sys2Proof.Machine

open Sys2Proof Sys2Proof.Claims

/-! ## REV_BYTE -/

/-- Settles O40: the byte is `rev8` of DIN, and REV_BYTE has no checks. -/
theorem revByteReversesDin : Obligations.RevByteReversesDin :=
  ⟨decode_encode .revByte, fun s => ⟨rev8 s.din, fun _ hi => getLsbD_rev8 s.din hi, exec_of_ok (i := .revByte) rfl⟩⟩

/-! ## The checks of REV_BUF, in order -/

theorem revBufResult_unreadable {s : State} (hread : ¬ Readable s) : revBufResult s = .error .lengthOutOfRange := by
  rw [revBufResult, checkedInput_error (Nat.not_le.mp hread)]

theorem revBufResult_overflow {s : State} (hread : Readable s) (hlen : s.cfg.obufBytes < s.ilen.toNat) :
    revBufResult s = .error .outputOverflow := by
  simp [revBufResult, checkedInput_ok hread, fitsObuf, hlen]

theorem revBufResult_ok {s : State} (hread : Readable s) (hfit : s.ilen.toNat ≤ s.cfg.obufBytes) :
    revBufResult s = .ok ((inputBytes s s.ilen.toNat).map rev8) := by
  simp [revBufResult, checkedInput_ok hread, fitsObuf, hfit]

/-! ## The state REV_BUF leaves -/

/-- The state after REV_BUF has stored the reversed input (R142). -/
def revBufDone (s : State) : State :=
  complete 0x21 { storeObuf ((inputBytes s s.ilen.toNat).map rev8) s with olen := s.ilen }

theorem exec_revBuf_ok {s : State} (hread : Readable s) (hfit : s.ilen.toNat ≤ s.cfg.obufBytes) :
    exec .revBuf s = .next (revBufDone s) := by
  have hok : commandResult s .revBuf = .ok _ := revBufResult_ok hread hfit
  rw [exec_of_ok hok, commitOutput, List.length_map, length_inputBytes, BitVec.ofNat_toNat, BitVec.setWidth_eq]
  rfl

theorem obuf_revBufDone (s : State) {j : Nat} (hj : j < s.ilen.toNat) : (revBufDone s).obuf j = rev8 (s.ibuf j) := calc
  (revBufDone s).obuf j = ((inputBytes s s.ilen.toNat).map rev8).getD j 0 := obuf_storeObuf s _ (by simpa using hj)
  _ = rev8 ((inputBytes s s.ilen.toNat).getD j 0) := List.getD_map (d := 0) (f := rev8) _
  _ = rev8 (s.ibuf j) := by rw [getD_inputBytes s hj]

theorem revBufDone_onlyObufBelow (s : State) : OnlyObufBelow s.ilen.toNat s (revBufDone s) := fun a ha =>
  (byteAt_storeObuf s _ a).trans (if_neg (by rw [List.length_map, length_inputBytes]; unfold obufBase; omega))

/-- Settles O41: one lemma for each way the checks end; the output is read byte by byte. -/
theorem revBufReversesTheBuffer : Obligations.RevBufReversesTheBuffer := by
  refine ⟨decode_encode .revBuf, fun s => ⟨fun hread => ?_, fun hread hlen => ?_, fun hread hfit => ?_⟩⟩
  · exact raises_of_error (revBufResult_unreadable hread)
  · exact raises_of_error (revBufResult_overflow hread hlen)
  · refine ⟨revBufDone s, exec_revBuf_ok hread hfit, rfl, fun j i hj hi => ?_, revBufDone_onlyObufBelow s⟩
    rw [obuf_revBufDone s hj, getLsbD_rev8 _ hi]

/-- Settles O42: the second run has the first one's length and capacities, so it passes the same checks, and reverses
each byte of the first one's output once more. -/
theorem revBufUndoesItself : Obligations.RevBufUndoesItself := by
  refine ⟨rev8_rev8, fun s t u hread hfit ht hcfg hlen hcopy => ?_⟩
  obtain rfl : revBufDone s = t := Host.Outcome.next.inj ((exec_revBuf_ok hread hfit).symm.trans ht)
  have hilen : u.ilen = s.ilen := BitVec.eq_of_toNat_eq hlen
  have hucfg : u.cfg = s.cfg := hcfg
  have hexec : exec .revBuf u = .next (revBufDone u) :=
    exec_revBuf_ok (by rwa [Readable, hilen, hucfg]) (by rwa [hilen, hucfg])
  refine ⟨revBufDone u, hexec, rfl, hilen, fun j hj => ?_⟩
  calc (revBufDone u).obuf j = rev8 (u.ibuf j) := obuf_revBufDone u (hilen ▸ hj)
    _ = rev8 (rev8 (s.ibuf j)) := by rw [hcopy j hj, obuf_revBufDone s hj]
    _ = s.ibuf j := rev8_rev8 _

end Sys2Proof.Machine

/-! PROOF. The CRC and FCS_CHECK. First the rule's loop and the model's, and the algebra of one step: it is linear, and
it loses nothing. Then what one changed byte does to a CRC, and what one flipped bit does to a byte string. The commands
come last: one lemma for each way their checks end. -/

namespace Sys2Proof.Machine

open Sys2Proof Sys2Proof.Claims

/-! ## The rule's loop -/

theorem crcShifts_eq_iterate (n : Nat) (c : BitVec 16) : crcShifts n c = crcShift^[n] c := by
  induction n generalizing c with
  | zero => rfl
  | succ n ih => rw [crcShifts, ih, Function.iterate_succ_apply]

/-- The rule tests bit 0 as the remainder by 2 (R160). -/
theorem ruleCrcStep_eq_crcStep : ruleCrcStep = crcStep := by
  have hshift : (fun c : BitVec 16 => if c.toNat % 2 = 1 then (c >>> 1) ^^^ 0x8408 else c >>> 1) = crcShift := by
    funext c
    simp [crcShift, BitVec.getLsbD, Nat.testBit_zero]
  funext c b
  rw [ruleCrcStep, hshift, crcStep, crcShifts_eq_iterate]

theorem ruleCrc16_eq_crc16 : ruleCrc16 = crc16 := by
  funext d
  rw [ruleCrc16, ruleCrcStep_eq_crcStep, crc16, crcFold]

/-! ## The algebra of the CRC step -/

theorem crcShifts_xor (n : Nat) (c c' : BitVec 16) : crcShifts n (c ^^^ c') = crcShifts n c ^^^ crcShifts n c' := by
  induction n generalizing c c' with
  | zero => rfl
  | succ n ih => simp only [crcShifts, crcShift_xor, ih]

/-- Settles O39: the byte enters by XOR, and each shift is linear. -/
theorem crcStepIsLinear : Obligations.CrcStepIsLinear := by
  intro c c' b b'
  rw [crcStep, BitVec.setWidth_xor, show c ^^^ c' ^^^ (b.setWidth 16 ^^^ b'.setWidth 16) =
    (c ^^^ b.setWidth 16) ^^^ (c' ^^^ b'.setWidth 16) by ac_rfl, crcShifts_xor, ← crcStep, ← crcStep]

/-- The shift is linear and only 0 shifts to 0, so it is one to one. -/
theorem crcShift_injective : Function.Injective crcShift := fun c c' h => by
  rw [← BitVec.xor_eq_zero_iff] at h ⊢
  exact crcShift_eq_zero (crcShift_xor c c' ▸ h)

theorem crcShifts_injective (n : Nat) : Function.Injective (crcShifts n) := by
  rw [funext (crcShifts_eq_iterate n)]
  exact crcShift_injective.iterate n

theorem crcStep_left_injective (b : Byte) : Function.Injective fun c => crcStep c b := fun _ _ h =>
  (BitVec.xor_left_inj _).mp (crcShifts_injective 8 h)

theorem crcStep_right_injective (c : BitVec 16) : Function.Injective (crcStep c) := fun b b' h =>
  byte_ext fun i hi => by
    have hbit := congrArg (fun x : BitVec 16 => x.getLsbD i) ((BitVec.xor_right_inj c).mp (crcShifts_injective 8 h))
    simpa [show i < 16 by omega] using hbit

/-! ## A changed byte changes the CRC -/

theorem crcFold_append (c : BitVec 16) (d e : List Byte) : crcFold c (d ++ e) = crcFold (crcFold c d) e :=
  List.foldl_append

theorem crcFold_injective (d : List Byte) : Function.Injective fun c => crcFold c d := by
  induction d with
  | nil => exact fun _ _ h => h
  | cons b d ih => exact ih.comp (crcStep_left_injective b)

/-- Two bytes fold the CRC so far into different values, and the bytes after them keep these apart. -/
theorem crcFold_set_ne (c : BitVec 16) (d : List Byte) {i : Nat} (hi : i < d.length) {y : Byte} (hy : y ≠ d[i]) :
    crcFold c (d.set i y) ≠ crcFold c d := fun h => by
  have hsplit : d = d.take i ++ d[i] :: d.drop (i + 1) := by simp
  rw [List.set_eq_take_append_cons_drop, if_pos hi] at h
  conv_rhs at h => rw [hsplit]
  rw [crcFold_append, crcFold_append] at h
  exact hy (crcStep_right_injective _ (crcFold_injective _ h))

theorem crc16_set_ne (d : List Byte) {i : Nat} (hi : i < d.length) {y : Byte} (hy : y ≠ d[i]) :
    crc16 (d.set i y) ≠ crc16 d := fun h => crcFold_set_ne 0xFFFF d hi hy ((BitVec.xor_left_inj _).mp h)

/-! ## The two bytes of an FCS -/

@[simp] theorem length_fcsBytes (f : BitVec 16) : (fcsBytes f).length = 2 := rfl

@[simp] theorem fcsBytes_append (hi lo : Byte) : fcsBytes (hi ++ lo) = [hi, lo] := by
  rw [fcsBytes, BitVec.extractLsb'_append_eq_left (w' := 8), BitVec.extractLsb'_append_eq_right]

/-- The value of the two bytes of an FCS is the FCS (R58). -/
theorem fcs_high_append_low (f : BitVec 16) : f.extractLsb' 8 8 ++ f.extractLsb' 0 8 = f :=
  (BitVec.extractLsb'_append_extractLsb'_eq_extractLsb' rfl).trans BitVec.extractLsb'_eq_self

theorem fcsBytes_injective : Function.Injective fcsBytes := fun f f' h => by
  simp only [fcsBytes, List.cons.injEq, and_true] at h
  obtain ⟨hhi, hlo⟩ := h
  rw [← fcs_high_append_low f, hhi, hlo, fcs_high_append_low]

theorem bigEndian_eq_append (hi lo : Byte) : bigEndian hi lo = hi ++ lo := by
  apply BitVec.eq_of_toNat_eq
  rw [BitVec.toNat_append, Nat.shiftLeft_eq, Nat.mul_comm, ← Nat.two_pow_add_eq_or_of_lt lo.isLt, bigEndian,
    BitVec.toNat_ofNat, Nat.mod_eq_of_lt (by omega)]

/-- The rule's two bytes, by division, are the model's, by extraction (R58). -/
theorem divMod_eq_fcsBytes (f : BitVec 16) :
    [BitVec.ofNat 8 (f.toNat / 256), BitVec.ofNat 8 (f.toNat % 256)] = fcsBytes f := by
  have hhi : BitVec.ofNat 8 (f.toNat / 256) = f.extractLsb' 8 8 := by
    apply BitVec.eq_of_toNat_eq
    simp [Nat.shiftRight_eq_div_pow]
  have hlo : BitVec.ofNat 8 (f.toNat % 256) = f.extractLsb' 0 8 := by
    apply BitVec.eq_of_toNat_eq
    simp
  rw [hhi, hlo, fcsBytes]

/-! ## The verifier -/

/-- The verdict on a string in two parts, the second of them an FCS (R165). -/
theorem verifyFcs_append_fcsBytes (d : List Byte) (f : BitVec 16) :
    verifyFcs (d ++ fcsBytes f) = if crc16 d = f then .ok d else .error .fcsMismatch := by
  have hshort : ¬ d.length + 2 < 2 := by omega
  simp [verifyFcs, fcsBytes, hshort, fcs_high_append_low]

theorem exists_append_fcsBytes {d : List Byte} {n : Nat} (h : d.length = n + 2) :
    ∃ p f, p.length = n ∧ d = p ++ fcsBytes f := by
  obtain ⟨hi, lo, hlast⟩ := List.length_eq_two.mp (show (d.drop n).length = 2 by simp [h])
  exact ⟨d.take n, hi ++ lo, by simp [h], by rw [fcsBytes_append, ← hlast, List.take_append_drop]⟩

/-- A string followed by its FCS, with one byte changed, does not verify: if the byte is in the string, the CRC changes
and the FCS does not, and otherwise the FCS changes and the CRC does not. -/
theorem verifyFcs_set_eq_mismatch (d : List Byte) {i : Nat} {y : Byte}
    (hi : i < (d ++ fcsBytes (crc16 d)).length) (hy : y ≠ (d ++ fcsBytes (crc16 d))[i]) :
    verifyFcs ((d ++ fcsBytes (crc16 d)).set i y) = .error .fcsMismatch := by
  obtain ⟨p, f, hp, heq⟩ := exists_append_fcsBytes (n := d.length)
    (show ((d ++ fcsBytes (crc16 d)).set i y).length = d.length + 2 by simp)
  rw [heq, verifyFcs_append_fcsBytes, if_neg]
  rintro rfl
  rw [List.set_append] at heq
  split at heq
  · next hid =>
    obtain ⟨rfl, hfcs⟩ := List.append_inj heq (by simpa using hp.symm)
    rw [List.getElem_append_left hid] at hy
    exact crc16_set_ne d hid hy (fcsBytes_injective hfcs).symm
  · next hid =>
    obtain ⟨rfl, hfcs⟩ := List.append_inj heq hp.symm
    rw [List.getElem_append_right (by omega)] at hy
    have hlt : i - d.length < (fcsBytes (crc16 d)).length := by simp at hi ⊢; omega
    have hget := congrArg (fun l => l[i - d.length]?) hfcs
    simp only [List.getElem?_set_self hlt, List.getElem?_eq_getElem hlt, Option.some.injEq] at hget
    exact hy hget

/-! ## A flipped bit changes one byte -/

theorem byteBits_injective : Function.Injective byteBits := fun b c h =>
  byte_ext fun i hi => by
    have hbit := congrArg (fun s => s.getD (7 - i) false) h
    simpa only [getD_byteBits _ (show 7 - i < 8 by omega), show 7 - (7 - i) = i by omega] using hbit

theorem bitsMSB_injective : Function.Injective bitsMSB := fun d => by
  induction d with
  | nil => intro e h; simpa [length_bitsMSB] using congrArg List.length h
  | cons b d ih =>
    rintro (_ | ⟨c, e⟩) h
    · simpa [length_bitsMSB] using congrArg List.length h
    · obtain ⟨hb, hd⟩ := List.append_inj h rfl
      rw [byteBits_injective hb, ih hd]

theorem flipBit_ne {s : Bits} {p : Nat} (hp : p < s.length) : flipBit s p ≠ s := fun h => by
  have hbit := congrArg (fun s => s.getD p false) h
  simp [flipBit, hp] at hbit

theorem flipBit_append_left {s : Bits} (s' : Bits) {p : Nat} (hp : p < s.length) :
    flipBit (s ++ s') p = flipBit s p ++ s' := by
  rw [flipBit, List.getD_append _ _ _ _ hp, List.set_append_left _ _ hp, flipBit]

theorem flipBit_append_right (s : Bits) {s' : Bits} {p : Nat} (hp : s.length ≤ p) :
    flipBit (s ++ s') p = s ++ flipBit s' (p - s.length) := by
  rw [flipBit, List.getD_append_right _ _ _ _ hp, List.set_append_right _ _ hp, flipBit]

@[simp] theorem length_flipBit (s : Bits) (p : Nat) : (flipBit s p).length = s.length := List.length_set

theorem length_eq_of_flipBit {d e : List Byte} {p : Nat} (h : bitsMSB e = flipBit (bitsMSB d) p) :
    e.length = d.length := by
  have hbits := congrArg List.length h
  rw [length_flipBit, length_bitsMSB, length_bitsMSB] at hbits
  omega

/-- The byte string whose bits differ in one place differs in the byte of that place (R190). -/
theorem exists_set_of_flipBit {d e : List Byte} {p : Nat} (hp : p < 8 * d.length)
    (h : bitsMSB e = flipBit (bitsMSB d) p) : ∃ i y, ∃ hi : i < d.length, y ≠ d[i] ∧ e = d.set i y := by
  induction d generalizing e p with
  | nil => simp at hp
  | cons b d ih =>
    cases e with
    | nil => exact absurd (length_eq_of_flipBit h) (by simp)
    | cons c e =>
      rw [bitsMSB_cons, bitsMSB_cons] at h
      by_cases hp8 : p < 8
      · rw [flipBit_append_left _ hp8] at h
        obtain ⟨hc, he⟩ := List.append_inj h (by simp)
        refine ⟨0, c, by simp, ?_, by rw [bitsMSB_injective he]; rfl⟩
        rintro rfl
        exact flipBit_ne hp8 hc.symm
      · rw [flipBit_append_right _ (Nat.not_lt.mp hp8)] at h
        obtain ⟨hc, he⟩ := List.append_inj h rfl
        obtain ⟨i, y, hi, hy, rfl⟩ := ih (by simp at hp ⊢; omega) he
        exact ⟨i + 1, y, by simpa using hi, hy, by rw [byteBits_injective hc]; rfl⟩

/-- A string followed by its FCS, with one bit flipped, does not verify (R167). -/
theorem verifyFcs_flipBit_eq_mismatch {d e : List Byte} {p : Nat} (hp : p < 8 * (d.length + 2))
    (h : bitsMSB e = flipBit (bitsMSB (d ++ fcsBytes (crc16 d))) p) : verifyFcs e = .error .fcsMismatch := by
  obtain ⟨i, y, hi, hy, rfl⟩ := exists_set_of_flipBit (by simpa using hp) h
  exact verifyFcs_set_eq_mismatch d hi hy

/-! ## CRC_INIT and CRC_BYTE -/

theorem exec_crcInit (s : State) : exec .crcInit s = .next (complete 0x10 { s with crc := 0xFFFF }) :=
  exec_of_ok (i := .crcInit) rfl

/-- Settles O31: FCS is the complement of the CRC that CRC_INIT sets. -/
theorem crcInitStartsTheCrc : Obligations.CrcInitStartsTheCrc :=
  ⟨decode_encode .crcInit, fun s => ⟨exec_crcInit s, by simp [State.regWord, State.fcs]⟩⟩

/-- Settles O32: the rule's loop is the model's. -/
theorem crcByteFoldsDin : Obligations.CrcByteFoldsDin := by
  refine ⟨decode_encode .crcByte, fun s => ?_⟩
  rw [ruleCrcStep_eq_crcStep]
  exact exec_of_ok (i := .crcByte) rfl

/-! ## CRC_BUF -/

theorem checkedInput_of_inputIs {s : State} {d : List Byte} (hd : InputIs s d) (hread : Readable s) :
    checkedInput s = .ok d := by
  obtain ⟨hlen, hbytes⟩ := hd
  rw [checkedInput_ok hread, hlen, inputBytes_eq hbytes]

theorem exec_crcBuf_unreadable {s : State} (hread : ¬ Readable s) : Raises .crcBuf 0x12 .lengthOutOfRange s :=
  raises_of_error (i := .crcBuf) (by rw [commandResult, crcBufResult, checkedInput_error (Nat.not_le.mp hread)])

theorem exec_crcBuf_ok {s : State} {d : List Byte} (hd : InputIs s d) (hread : Readable s) :
    exec .crcBuf s = .next (complete 0x12 { s with crc := crcFold s.crc d }) :=
  exec_of_ok (i := .crcBuf) (by rw [commandResult, crcBufResult, checkedInput_of_inputIs hd hread])

/-- The CRC that CRC_BUF leaves. -/
theorem crc_of_exec_crcBuf {s t : State} {d : List Byte} (hd : InputIs s d) (hread : Readable s)
    (ht : exec .crcBuf s = .next t) : t.crc = crcFold s.crc d := by
  cases (exec_crcBuf_ok hd hread).symm.trans ht
  rfl

/-- Settles O33: one lemma for each way the check ends, and the rule's loop is the model's. -/
theorem crcBufFoldsTheBuffer : Obligations.CrcBufFoldsTheBuffer := by
  refine ⟨decode_encode .crcBuf, fun s d hd => ⟨fun hread => ?_, exec_crcBuf_unreadable⟩⟩
  rw [ruleCrcStep_eq_crcStep]
  exact exec_crcBuf_ok hd hread

/-- Settles O34: folding a string in two parts is folding it whole. -/
theorem crcBufChainsOverLoads : Obligations.CrcBufChainsOverLoads := by
  intro s u whole t v x d e hd hsread ht he huread hcrc hv hde hwread hwcrc hx
  calc v.crc = crcFold (crcFold s.crc d) e := by
        rw [crc_of_exec_crcBuf he huread hv, hcrc, crc_of_exec_crcBuf hd hsread ht]
    _ = crcFold whole.crc (d ++ e) := by rw [crcFold_append, hwcrc]
    _ = x.crc := (crc_of_exec_crcBuf hde hwread hx).symm

/-- Settles O35: CRC_INIT leaves ILEN, the capacities and IBUF alone, so CRC_BUF folds the same bytes from 0xFFFF. -/
theorem crcInitThenCrcBufLeavesFcs : Obligations.CrcInitThenCrcBufLeavesFcs := fun s d hd hread =>
  ⟨_, _, exec_crcInit s, exec_crcBuf_ok (s := complete 0x10 { s with crc := 0xFFFF }) hd hread,
    congrFun ruleCrc16_eq_crc16.symm d⟩

/-! ## FCS_CHECK -/

/-- FCS_CHECK is the verifier run on the input. -/
theorem fcsCheckResult_of_inputIs {s : State} {d : List Byte} (hd : InputIs s d) (hread : Readable s) :
    commandResult s .fcsCheck = verifyFcs d := by
  rw [commandResult, fcsCheckResult, checkedInput_of_inputIs hd hread]

theorem exec_fcsCheck_unreadable {s : State} (hread : ¬ Readable s) : Raises .fcsCheck 0x13 .lengthOutOfRange s :=
  raises_of_error (i := .fcsCheck) (by rw [commandResult, fcsCheckResult, checkedInput_error (Nat.not_le.mp hread)])

theorem exec_fcsCheck_tooShort {s : State} (hread : Readable s) (hlen : s.ilen.toNat < 2) :
    Raises .fcsCheck 0x13 .frameTooShort s :=
  raises_of_error (i := .fcsCheck) <| by
    simp [commandResult, fcsCheckResult, checkedInput_ok hread, verifyFcs, hlen]

section WithFcs

variable {s : State} {d : List Byte} {f : BitVec 16} (hd : InputIs s (d ++ fcsBytes f)) (hread : Readable s)
include hd hread

theorem exec_fcsCheck_mismatch (hf : crc16 d ≠ f) : Raises .fcsCheck 0x13 .fcsMismatch s :=
  raises_of_error (i := .fcsCheck) <| by
    rw [fcsCheckResult_of_inputIs hd hread, verifyFcs_append_fcsBytes, if_neg hf]

theorem exec_fcsCheck_ok (hf : crc16 d = f) : exec .fcsCheck s = .next (complete 0x13 s) :=
  exec_of_ok (i := .fcsCheck) (a := d) <| by
    rw [fcsCheckResult_of_inputIs hd hread, verifyFcs_append_fcsBytes, if_pos hf]

end WithFcs

/-- Settles O36: one lemma for each way the checks end. -/
theorem fcsCheckVerdict : Obligations.FcsCheckVerdict := by
  refine ⟨decode_encode .fcsCheck, fun s =>
    ⟨exec_fcsCheck_unreadable, exec_fcsCheck_tooShort, fun d hi lo hd hread => ?_⟩⟩
  rw [← fcsBytes_append] at hd
  rw [ruleCrc16_eq_crc16, bigEndian_eq_append]
  exact ⟨exec_fcsCheck_mismatch hd hread, exec_fcsCheck_ok hd hread⟩

/-- ILEN is the length of the input, so an input that fits in IBUF can be read. -/
theorem readable_of_inputIs {s : State} {d : List Byte} (hd : InputIs s d) (hfit : d.length ≤ s.cfg.ibufBytes) :
    Readable s := hd.1.trans_le hfit

/-- Settles O37: the string and the FCS in IBUF agree. -/
theorem fcsGeneratorAndVerifierAgree : Obligations.FcsGeneratorAndVerifierAgree := by
  intro s d hfit hd
  rw [divMod_eq_fcsBytes, ruleCrc16_eq_crc16] at hd
  exact exec_fcsCheck_ok hd (readable_of_inputIs hd (by simpa using hfit)) rfl

/-- Settles O38: the flipped bit changes one byte, and no codeword is one byte away from another. -/
theorem fcsCheckDetectsSingleBitErrors : Obligations.FcsCheckDetectsSingleBitErrors := by
  intro s d e p hfit hp hflip he
  rw [divMod_eq_fcsBytes, ruleCrc16_eq_crc16] at hflip
  have hlen : e.length = d.length + 2 := by simpa using length_eq_of_flipBit hflip
  have hread : Readable s := readable_of_inputIs he (hlen ▸ hfit)
  exact raises_of_error (i := .fcsCheck)
    ((fcsCheckResult_of_inputIs he hread).trans (verifyFcs_flipBit_eq_mismatch hp hflip))

end Sys2Proof.Machine

/-! PROOF. The HDLC bit sequences. Where each bit stands after serializing and packing; the stuffing engine and the loop
of its rule; that no six 1-bits in a row, and so no flag, stand before the closing flag; the search for a flag; the
destuffing engine, the loop of its rule, and that it undoes stuffing. -/

namespace Sys2Proof.Machine

open Sys2Proof Sys2Proof.Claims

/-! ## Serializing and packing -/

theorem getD_bitsMSB (d : List Byte) {i j : Nat} (hi : i < d.length) (hj : j < 8) :
    (bitsMSB d).getD (8 * i + j) false = (d.getD i 0).getLsbD (7 - j) := by
  induction d generalizing i with
  | nil => simp at hi
  | cons b d ih =>
    rw [bitsMSB_cons]
    cases i with
    | zero =>
      rw [List.getD_append _ _ _ _ (by simpa using hj), Nat.mul_zero, Nat.zero_add, getD_byteBits b hj]
      rfl
    | succ i =>
      rw [List.getD_append_right _ _ _ _ (by simp; omega), length_byteBits,
        show 8 * (i + 1) + j - 8 = 8 * i + j by omega, ih (by simpa using hi)]
      rfl

theorem getLsbD_packMSB (s : Bits) {i j : Nat} (hi : i < octets s.length) (hj : j < 8) :
    ((packMSB s).getD i 0).getLsbD (7 - j) = s.getD (8 * i + j) false := by
  rw [packMSB, getD_packBytes _ _ hi, getLsbD_packByte _ hj]
  simp

/-- The rule says what a bit past the end reads as (R191). -/
theorem ite_getD_eq_getD (s : Bits) (p : Nat) : (if p < s.length then s.getD p false else false) = s.getD p false := by
  split
  · rfl
  · next hp => rw [List.getD_eq_default _ _ (Nat.not_lt.mp hp)]

theorem packMSB_bitsMSB (d : List Byte) : packMSB (bitsMSB d) = d := by
  induction d with
  | nil => rfl
  | cons b d ih => rw [bitsMSB_cons, packMSB_byteBits_append, ih]

/-- Settles O43: each bit by its byte and its place in the byte. -/
theorem serializingAndPackingBits : Obligations.SerializingAndPackingBits := by
  refine ⟨length_bitsMSB, fun d i j hi hj => getD_bitsMSB d hi hj, length_packMSB, fun s i j hi hj => ?_,
    packMSB_bitsMSB⟩
  rw [ite_getD_eq_getD, getLsbD_packMSB s hi hj]

/-- Serializing packed bits gives them back, in front of the padding (R191). -/
theorem take_bitsMSB_packMSB (s : Bits) : (bitsMSB (packMSB s)).take s.length = s := by
  have hlen : s.length ≤ (bitsMSB (packMSB s)).length := by
    rw [length_bitsMSB, length_packMSB, octets]
    omega
  refine List.ext_getElem (by rw [List.length_take_of_le hlen]) fun p _ hp => ?_
  have hi : p / 8 < octets s.length := by unfold octets; omega
  have hj : p % 8 < 8 := Nat.mod_lt _ (by decide)
  have hbit := getD_bitsMSB (packMSB s) (by simpa using hi) hj
  rw [getLsbD_packMSB s hi hj, Nat.div_add_mod, List.getD_eq_getElem _ _ (hp.trans_le hlen),
    List.getD_eq_getElem _ _ hp] at hbit
  rw [List.getElem_take, hbit]

/-! ## The stuffing engine -/

/-- One round of the rule's loop (R192). -/
def ruleStuffStep (st : Bits × Nat) (b : Bool) : Bits × Nat :=
  let out := st.1 ++ [b]
  if b then (if st.2 + 1 = 5 then (out ++ [false], 0) else (out, st.2 + 1)) else (out, 0)

theorem ruleStuff_eq_foldl (s : Bits) : ruleStuff s = (s.foldl ruleStuffStep ([], 0)).1 := rfl

/-- The rule's loop sends what the engine sends, after what it has sent so far. -/
theorem foldl_ruleStuffStep (s : Bits) (out : Bits) (ones : Nat) :
    (s.foldl ruleStuffStep (out, ones)).1 = out ++ stuffFrom ones s := by
  induction s generalizing out ones with
  | nil => simp [stuffFrom]
  | cons b s ih =>
    cases b with
    | false => simp [ruleStuffStep, stuffFrom, ih]
    | true => by_cases h5 : ones + 1 = 5 <;> simp [ruleStuffStep, stuffFrom, h5, ih]

theorem stuff_eq_ruleStuff (s : Bits) : stuff s = ruleStuff s := by
  rw [ruleStuff_eq_foldl, foldl_ruleStuffStep]
  rfl

theorem length_stuff_le (s : Bits) : (stuff s).length ≤ s.length + s.length / 5 := by
  have h : 5 * (stuff s).length ≤ 6 * s.length + 0 := length_stuffFrom_le s 0 (by decide)
  omega

theorem le_length_stuff (s : Bits) : s.length ≤ (stuff s).length := le_length_stuffFrom s 0

/-! ## Six 1-bits in a row -/

/-- Six 1-bits in a row stand from position `p` on. -/
def SixAt (s : Bits) (p : Nat) : Prop := (s.drop p).take 6 = List.replicate 6 true

/-- A run of `ones` 1-bits does not become six before the 0 that follows the sequence. -/
theorem NoSix.take_ne_ones {s : Bits} {ones : Nat} (h : NoSix ones s) (hones : ones < 6) (rest : Bits) :
    (s ++ false :: rest).take (6 - ones) ≠ List.replicate (6 - ones) true := by
  induction s generalizing ones with
  | nil =>
    rw [show 6 - ones = 5 - ones + 1 by omega]
    simp [List.replicate_succ]
  | cons b s ih =>
    cases b with
    | false =>
      rw [show 6 - ones = 5 - ones + 1 by omega]
      simp [List.replicate_succ]
    | true =>
      obtain ⟨hlt, hs⟩ := h
      rw [show 6 - ones = 6 - (ones + 1) + 1 by omega]
      simpa [List.replicate_succ] using ih hs hlt

/-- In a sequence that never completes six 1-bits, and the 0 after it, no six stand in a row. -/
theorem NoSix.not_sixAt {s : Bits} {ones : Nat} (h : NoSix ones s) (rest : Bits) {p : Nat} (hp : p ≤ s.length) :
    ¬ SixAt (s ++ false :: rest) p := by
  induction p generalizing s ones with
  | zero => exact (h.mono (Nat.zero_le ones)).take_ne_ones (by decide) rest
  | succ p ih =>
    cases s with
    | nil => simp at hp
    | cons b s =>
      cases b with
      | false => exact ih h (by simpa using hp)
      | true => exact ih h.2 (by simpa using hp)

theorem not_sixAt_stuff (s rest : Bits) {p : Nat} (hp : p ≤ (stuff s).length) :
    ¬ SixAt (stuff s ++ false :: rest) p :=
  (noSix_stuffFrom s 0 (by decide)).not_sixAt rest hp

theorem SixAt.lt_length {s : Bits} {p : Nat} (h : SixAt s p) : p + 6 ≤ s.length := by
  have hlen := congrArg List.length h
  simp at hlen
  omega

/-- Six 1-bits in a row stay where they are when bits follow. -/
theorem SixAt.append {s : Bits} {p : Nat} (h : SixAt s p) (rest : Bits) : SixAt (s ++ rest) p := by
  have hlen := h.lt_length
  rw [SixAt, List.drop_append_of_le_length (by omega), List.take_append_of_le_length (by simp; omega)]
  exact h

/-- A flag holds six 1-bits in a row, from its second bit on (R10). -/
theorem sixAt_of_flagAt {s : Bits} {p : Nat} (h : FlagAt s p) : SixAt s (p + 1) := calc
  (s.drop (p + 1)).take 6 = (((s.drop p).take 8).drop 1).take 6 := by simp [List.drop_take, List.take_take]
  _ = List.replicate 6 true := by rw [h]; rfl

/-- Settles O44: the rule's loop is the engine, whose output with a 0 after it never holds six 1-bits in a row. -/
theorem stuffingFollowsItsRule : Obligations.StuffingFollowsItsRule := by
  refine fun s => ⟨stuff_eq_ruleStuff s, fun p h => ?_, le_length_stuff s, length_stuff_le s⟩
  have hp := SixAt.lt_length h
  exact not_sixAt_stuff s [] (by omega) (SixAt.append h [false])

/-! ## Where a flag stands -/

theorem startsWithFlag_drop_iff (raw : Bits) (p : Nat) : startsWithFlag (raw.drop p) = true ↔ FlagAt raw p :=
  beq_iff_eq

theorem startsWithFlag_flagBits_append (rest : Bits) : startsWithFlag (flagBits ++ rest) = true := rfl

/-- The first bit of a flag is followed by six 1-bits, and stuffing never sends them. -/
theorem startsWithFlag_cons_stuffFrom (b : Bool) (ones : Nat) (hones : ones ≤ 4) (s rest : Bits) :
    startsWithFlag (b :: (stuffFrom ones s ++ false :: rest)) = false := by
  refine Bool.eq_false_iff.mpr fun h => ?_
  have hsix := sixAt_of_flagAt ((startsWithFlag_drop_iff _ 0).mp h)
  exact (noSix_stuffFrom s ones hones).not_sixAt rest (Nat.zero_le _) hsix

/-- A flag lies inside the sequence. -/
theorem length_of_flagAt {raw : Bits} {p : Nat} (h : FlagAt raw p) : p + 8 ≤ raw.length := by
  have hlen := startsWithFlag_length ((startsWithFlag_drop_iff raw p).mpr h)
  rw [List.length_drop] at hlen
  omega

theorem findFlag_eq_none {raw : Bits} (h : ∀ p, ¬ FlagAt raw p) (i : Nat) : findFlag raw i = none := by
  induction raw generalizing i with
  | nil => rfl
  | cons b raw ih =>
    have hfront := (startsWithFlag_drop_iff (b :: raw) 0).not.mpr (h 0)
    exact (if_neg hfront).trans (ih (fun p => h (p + 1)) (i + 1))

theorem findFlag_eq_some {raw : Bits} {p : Nat} (h : FirstFlag raw p) (i : Nat) : findFlag raw i = some (i + p) := by
  obtain ⟨hflag, hfirst⟩ := h
  induction raw generalizing p i with
  | nil => exact absurd (length_of_flagAt hflag) (by simp)
  | cons b raw ih =>
    cases p with
    | zero => exact if_pos ((startsWithFlag_drop_iff (b :: raw) 0).mpr hflag)
    | succ p =>
      have hfront := (startsWithFlag_drop_iff (b :: raw) 0).not.mpr (hfirst 0 (Nat.succ_pos p))
      refine (if_neg hfront).trans ?_
      rw [ih (i + 1) hflag fun q hq => hfirst (q + 1) (Nat.succ_lt_succ hq), Nat.add_right_comm, Nat.add_assoc]

/-! ## The destuffing engine -/

theorem scanFrom_flag {s : Bits} (h : startsWithFlag s = true) (j ones : Nat) (rbody : Bits) :
    scanFrom s j ones rbody = .close rbody.reverse j := by
  cases s with
  | nil => exact absurd h (by decide)
  | cons b s => exact if_pos h

theorem scanFrom_true (s : Bits) (j ones : Nat) (rbody : Bits) :
    scanFrom (true :: s) j ones rbody =
      if ones + 1 = 6 then .violation j else scanFrom s (j + 1) (ones + 1) (true :: rbody) := rfl

theorem scanFrom_false {s : Bits} (h : startsWithFlag (false :: s) = false) (j ones : Nat) (rbody : Bits) :
    scanFrom (false :: s) j ones rbody = scanFrom s (j + 1) 0 (if ones = 5 then rbody else false :: rbody) := by
  rw [scanFrom, h]
  rfl

/-- The engine, on the bits from `j` on, is the rule's loop at position `j` (R193). -/
theorem scanFrom_drop_eq_ruleScan (raw : Bits) (fuel j ones : Nat) (body : Bits) (hfuel : raw.length < fuel + j) :
    scanFrom (raw.drop j) j ones body.reverse = ruleScan raw fuel j ones body := by
  induction fuel generalizing j ones body with
  | zero => rw [List.drop_eq_nil_of_le (by omega)]; rfl
  | succ fuel ih =>
    rw [ruleScan]
    by_cases hflag : FlagAt raw j
    · rw [scanFrom_flag ((startsWithFlag_drop_iff raw j).mpr hflag), List.reverse_reverse,
        if_pos ⟨length_of_flagAt hflag, hflag⟩]
    · rw [if_neg fun h => hflag h.2]
      have hfront := Bool.eq_false_iff.mpr ((startsWithFlag_drop_iff raw j).not.mpr hflag)
      by_cases hj : raw.length ≤ j
      · rw [List.drop_eq_nil_of_le hj, if_pos hj]
        rfl
      · have hlt := Nat.not_le.mp hj
        rw [if_neg hj, List.getD_eq_getElem _ _ hlt]
        rw [List.drop_eq_getElem_cons hlt] at hfront ⊢
        cases hb : raw[j] with
        | true =>
          have hstep := ih (j + 1) (ones + 1) (body ++ [true]) (by omega)
          rw [List.reverse_append] at hstep
          rw [scanFrom_true, if_pos rfl]
          exact congrArg _ hstep
        | false =>
          rw [hb] at hfront
          have hstep := ih (j + 1) 0 (if ones ≠ 5 then body ++ [false] else body) (by omega)
          rw [scanFrom_false hfront, if_neg Bool.false_ne_true, ← hstep]
          by_cases h5 : ones = 5 <;> simp [h5]

theorem destuffScan_eq_ruleScan (raw : Bits) (p : Nat) : destuffScan raw p = ruleScan raw (raw.length + 1) p 0 [] :=
  scanFrom_drop_eq_ruleScan raw (raw.length + 1) p 0 [] (by omega)

/-- Settles O45: the engine is the rule's loop, which never needs more rounds than there are bits and one. -/
theorem destuffScanFollowsItsRule : Obligations.DestuffScanFollowsItsRule := destuffScan_eq_ruleScan

/-- Destuffing follows stuffing bit by bit, with the same run so far, up to the flag. -/
theorem scanFrom_stuffFrom (body rest : Bits) (j ones : Nat) (hones : ones ≤ 4) (rbody : Bits) :
    scanFrom (stuffFrom ones body ++ (flagBits ++ rest)) j ones rbody =
      .close (rbody.reverse ++ body) (j + (stuffFrom ones body).length) := by
  induction body generalizing j ones rbody with
  | nil => simpa [stuffFrom] using scanFrom_flag (startsWithFlag_flagBits_append rest) j ones rbody
  | cons b body ih =>
    have hzero (i n : Nat) (r : Bits) :
        scanFrom (false :: (stuffFrom 0 body ++ (flagBits ++ rest))) i n r =
          .close ((if n = 5 then r else false :: r).reverse ++ body) (i + 1 + (stuffFrom 0 body).length) := by
      have hfront : startsWithFlag (false :: (stuffFrom 0 body ++ (flagBits ++ rest))) = false :=
        startsWithFlag_cons_stuffFrom false 0 (by decide) body _
      rw [scanFrom_false hfront, ih _ 0 (by decide)]
    cases b with
    | false =>
      rw [stuffFrom, List.cons_append, hzero, if_neg (by omega)]
      simp; omega
    | true =>
      by_cases h5 : ones + 1 = 5
      · rw [stuffFrom, if_pos h5, List.cons_append, List.cons_append, scanFrom_true, if_neg (by omega), hzero,
          if_pos h5]
        simp; omega
      · rw [stuffFrom, if_neg h5, List.cons_append, scanFrom_true, if_neg (by omega), ih _ _ (by omega)]
        simp; omega

/-- Settles O46: from the end of `before` on, destuffing follows stuffing. -/
theorem destuffingUndoesStuffing : Obligations.DestuffingUndoesStuffing := by
  intro before body after
  rw [List.append_assoc, List.append_assoc, destuffScan, List.drop_left]
  exact scanFrom_stuffFrom body after before.length 0 (by decide) []

end Sys2Proof.Machine

/-! PROOF. HDLC_ENCODE and HDLC_DECODE. First the line between its flags and how it deframes, whatever bits follow it;
then each command: the state it leaves has a name, and each way its checks end has a lemma. -/

namespace Sys2Proof.Machine

open Sys2Proof Sys2Proof.Claims

/-! ## The framed line -/

/-- A sequence stuffed and put between two flags (R194). -/
def framed (s : Bits) : Bits := flagBits ++ stuff s ++ flagBits

theorem frameLine_eq_framed (d : List Byte) : frameLine d = framed (bitsMSB (frameBody d)) := rfl

@[simp] theorem length_framed (s : Bits) : (framed s).length = 16 + (stuff s).length := by
  simp [framed, flagBits]
  omega

theorem framed_append (s rest : Bits) : framed s ++ rest = flagBits ++ (stuff s ++ (flagBits ++ rest)) := by
  simp [framed]

theorem flagAt_zero_framed_append (s rest : Bits) : FlagAt (framed s ++ rest) 0 :=
  congrArg (List.take 8) (framed_append s rest)

theorem flagAt_close_framed (s : Bits) : FlagAt (framed s) (8 + (stuff s).length) :=
  congrArg (List.take 8) (List.drop_left' (by simp [flagBits]; omega))

/-- Past the opening flag, no six 1-bits in a row start before the closing flag's own (R202). -/
theorem not_sixAt_framed (s : Bits) {p : Nat} (h8 : 8 ≤ p) (hp : p ≤ 8 + (stuff s).length) :
    ¬ SixAt (framed s) p := fun h => by
  have hdrop : (framed s).drop p = (stuff s ++ flagBits).drop (p - 8) := by
    rw [framed, List.append_assoc, List.drop_append, List.drop_eq_nil_of_le h8]
    rfl
  rw [SixAt, hdrop] at h
  exact not_sixAt_stuff s _ (by omega) h

/-- The closing flag is the first after the opening one (R202). -/
theorem le_of_flagAt_framed {s : Bits} {p : Nat} (h8 : 8 ≤ p) (h : FlagAt (framed s) p) : 8 + (stuff s).length ≤ p :=
  Nat.not_lt.mp fun hlt => not_sixAt_framed s (by omega) hlt (sixAt_of_flagAt h)

/-! ## The frame of a payload -/

theorem rev8_eq_reverse : rev8 = BitVec.reverse := by
  funext b
  refine byte_ext fun i hi => ?_
  rw [getLsbD_rev8 b hi, BitVec.getLsbD_reverse, BitVec.getMsbD_eq_getLsbD, decide_eq_true hi, Bool.true_and]

theorem ruleBody_eq_frameBody : ruleBody = frameBody := by
  funext d
  rw [ruleBody, divMod_eq_fcsBytes, ruleCrc16_eq_crc16, ← rev8_eq_reverse, frameBody]

theorem ruleLine_eq_frameLine (d : List Byte) : ruleLine d = frameLine d := by
  rw [ruleLine, ← stuff_eq_ruleStuff, ruleBody_eq_frameBody]
  rfl

@[simp] theorem length_frameBody (d : List Byte) : (frameBody d).length = d.length + 2 := by
  simp [frameBody]

/-- The two bounds of R201, from those of stuffing. -/
theorem length_frameLine_bounds (d : List Byte) :
    32 + 8 * d.length ≤ (frameLine d).length ∧
    (frameLine d).length ≤ 16 + 8 * (d.length + 2) + 8 * (d.length + 2) / 5 := by
  have hlow := le_length_stuff (bitsMSB (frameBody d))
  have hhigh := length_stuff_le (bitsMSB (frameBody d))
  rw [frameLine_eq_framed, length_framed]
  rw [length_bitsMSB, length_frameBody] at hlow hhigh
  omega

/-! ## HDLC_ENCODE -/

/-- Storing to OBUF leaves every byte outside the stored ones alone. -/
theorem onlyObufBelow_storeObuf (bs : List Byte) (s : State) : OnlyObufBelow bs.length s (storeObuf bs s) :=
  fun a ha => (byteAt_storeObuf s bs a).trans (if_neg (by unfold obufBase; omega))

/-- The state after HDLC_ENCODE has stored a line (R200). -/
def hdlcEncoded (line : Bits) (s : State) : State :=
  complete 0x30 { storeObuf (packMSB line) s with
    olen := BitVec.ofNat 16 (octets line.length)
    obits := BitVec.ofNat 32 line.length }

theorem obuf_hdlcEncoded (line : Bits) (s : State) {i : Nat} (hi : i < octets line.length) :
    (hdlcEncoded line s).obuf i = (packMSB line).getD i 0 :=
  obuf_storeObuf s _ (by simpa using hi)

theorem getLsbD_obuf_hdlcEncoded (line : Bits) (s : State) {i j : Nat} (hi : i < octets line.length) (hj : j < 8) :
    ((hdlcEncoded line s).obuf i).getLsbD (7 - j) = line.getD (8 * i + j) false := by
  rw [obuf_hdlcEncoded line s hi, getLsbD_packMSB line hi hj]

theorem hdlcEncoded_onlyObufBelow (line : Bits) (s : State) :
    OnlyObufBelow (octets line.length) s (hdlcEncoded line s) := by
  rw [← length_packMSB]
  exact onlyObufBelow_storeObuf (packMSB line) s

theorem toNat_obits_hdlcEncoded {line : Bits} (h : line.length < 2 ^ 32) (s : State) :
    (hdlcEncoded line s).obits.toNat = line.length :=
  (BitVec.toNat_ofNat _ _).trans (Nat.mod_eq_of_lt h)

/-- A line that fits in OBUF has a size that fits in OLEN (R6, R26). -/
theorem toNat_olen_hdlcEncoded {line : Bits} {s : State} (hcfg : s.cfg.wellFormed = true)
    (hfit : octets line.length ≤ s.cfg.obufBytes) : (hdlcEncoded line s).olen.toNat = octets line.length := by
  obtain ⟨-, -, -, hcap⟩ := (config_wellFormed_iff _).mp hcfg
  exact (BitVec.toNat_ofNat _ _).trans (Nat.mod_eq_of_lt (by omega))

/-- The first OBITS bits of OBUF are the line. -/
theorem obufLine_hdlcEncoded {line : Bits} (h : line.length < 2 ^ 32) (s : State) :
    obufLine (hdlcEncoded line s) = line := by
  have hlen : (obufLine (hdlcEncoded line s)).length = line.length := by
    rw [obufLine, List.length_map, List.length_range, toNat_obits_hdlcEncoded h]
  refine List.ext_getElem hlen fun p _ hp => ?_
  have hbit := getLsbD_obuf_hdlcEncoded line s (i := p / 8) (j := p % 8) (by unfold octets; omega) (by omega)
  rw [Nat.div_add_mod, List.getD_eq_getElem _ _ hp] at hbit
  simpa [obufLine] using hbit

theorem exec_hdlcEncode_unreadable {s : State} (hread : ¬ Readable s) : Raises .hdlcEncode 0x30 .lengthOutOfRange s :=
  raises_of_error (i := .hdlcEncode) <| by
    rw [commandResult, hdlcEncodeResult, checkedInput_error (Nat.not_le.mp hread)]

section Encode

variable {s : State} {d : List Byte} (hd : InputIs s d) (hread : Readable s)
include hd hread

theorem exec_hdlcEncode_overflow (hsize : s.cfg.obufBytes < octets (frameLine d).length) :
    Raises .hdlcEncode 0x30 .outputOverflow s :=
  raises_of_error (i := .hdlcEncode) <| by
    simp [commandResult, hdlcEncodeResult, checkedInput_of_inputIs hd hread, fitsObuf, hsize]

theorem exec_hdlcEncode_ok (hfit : octets (frameLine d).length ≤ s.cfg.obufBytes) :
    exec .hdlcEncode s = .next (hdlcEncoded (frameLine d) s) :=
  exec_of_ok (i := .hdlcEncode) (a := frameLine d) <| by
    simp [commandResult, hdlcEncodeResult, checkedInput_of_inputIs hd hread, fitsObuf, hfit]

end Encode

theorem inputIs_inputBytes (s : State) : InputIs s (inputBytes s s.ilen.toNat) :=
  ⟨(length_inputBytes s _).symm, fun _ hi => (getD_inputBytes s (by simpa using hi)).symm⟩

theorem inputBytes_of_inputIs {s : State} {d : List Byte} (hd : InputIs s d) : inputBytes s s.ilen.toNat = d := by
  obtain ⟨hlen, hbytes⟩ := hd
  rw [hlen, inputBytes_eq hbytes]

/-- HDLC_ENCODE ends OK only by storing the frame of its input, which fits. -/
theorem hdlcEncode_status_ok {s t : State} (h : exec .hdlcEncode s = .next t) (hok : t.status.code = .ok) :
    octets (frameLine (inputBytes s s.ilen.toNat)).length ≤ s.cfg.obufBytes ∧
    t = hdlcEncoded (frameLine (inputBytes s s.ilen.toNat)) s := by
  obtain ⟨c, hc, rfl⟩ | ⟨line, -, rfl, hfit, rfl⟩ := execHdlcEncode_next h
  · rw [raiseStatus_status] at hok
    subst hok
    simp at hc
  · exact ⟨hfit, rfl⟩

/-- ILEN has 16 bits, so the frame's length fits in OBITS. -/
theorem length_frameLine_input_lt (s : State) : (frameLine (inputBytes s s.ilen.toNat)).length < 2 ^ 32 := by
  obtain ⟨-, hhigh⟩ := length_frameLine_bounds (inputBytes s s.ilen.toNat)
  rw [length_inputBytes] at hhigh
  omega

/-- Settles O47: the bits in OBUF are the framed line, and a flag holds six 1-bits in a row. -/
theorem closingFlagIsTheFirstAfterTheOpening : Obligations.ClosingFlagIsTheFirstAfterTheOpening := by
  intro s t h hok
  obtain ⟨-, rfl⟩ := hdlcEncode_status_ok h hok
  have hlt := length_frameLine_input_lt s
  rw [toNat_obits_hdlcEncoded hlt, obufLine_hdlcEncoded hlt, frameLine_eq_framed]
  generalize bitsMSB (frameBody (inputBytes s s.ilen.toNat)) = body
  have hclose : (framed body).length - 8 = 8 + (stuff body).length := by rw [length_framed]; omega
  refine ⟨rfl, by simp, ?_, fun p h8 hp => not_sixAt_framed body h8 (by omega), ?_, fun p h8 hp => ?_⟩
  · simpa using flagAt_zero_framed_append body []
  · exact hclose ▸ flagAt_close_framed body
  · exact hclose ▸ le_of_flagAt_framed h8 hp

/-- Settles O48: one lemma for each way the checks end; the rule's line is the model's, packed bit by bit. -/
theorem hdlcEncodeWritesTheFrame : Obligations.HdlcEncodeWritesTheFrame := by
  refine ⟨decode_encode .hdlcEncode, fun s d hd => ?_⟩
  rw [ruleLine_eq_frameLine]
  refine ⟨exec_hdlcEncode_unreadable, exec_hdlcEncode_overflow hd, fun hread hfit => ?_⟩
  refine ⟨_, exec_hdlcEncode_ok hd hread hfit, rfl, fun i j hi hj => ?_, hdlcEncoded_onlyObufBelow _ s⟩
  rw [ite_getD_eq_getD, getLsbD_obuf_hdlcEncoded _ s hi hj]

/-- Settles O49: the bounds on the line's length, which fits in OBITS; with the room of the upper bound the line fits in
OBUF. -/
theorem encodedFrameSizeBounds : Obligations.EncodedFrameSizeBounds := by
  intro s t hcfg h
  obtain ⟨hlow, hhigh⟩ := length_frameLine_bounds (inputBytes s s.ilen.toNat)
  rw [length_inputBytes] at hlow hhigh
  refine ⟨fun hok => ?_, fun hroom hover => ?_⟩
  · obtain ⟨hfit, rfl⟩ := hdlcEncode_status_ok h hok
    rw [toNat_olen_hdlcEncoded hcfg hfit, toNat_obits_hdlcEncoded (length_frameLine_input_lt s)]
    exact ⟨hlow, hhigh, rfl⟩
  · by_cases hread : Readable s
    · have hfit : octets (frameLine (inputBytes s s.ilen.toNat)).length ≤ s.cfg.obufBytes := by unfold octets; omega
      cases (exec_hdlcEncode_ok (inputIs_inputBytes s) hread hfit).symm.trans h
      cases hover
    · cases (exec_hdlcEncode_unreadable hread).symm.trans h
      cases hover

/-! ## Deframing -/

theorem deframe_noFlag {raw : Bits} (h : ∀ p, ¬ FlagAt raw p) : deframe raw = .error .noOpeningFlag := by
  rw [deframe, findFlag_eq_none h]

section AfterFlag

variable {raw : Bits} {i : Nat} (hi : FirstFlag raw i)
include hi

theorem deframe_violation {q : Nat} (hscan : destuffScan raw (i + 8) = .violation q) :
    deframe raw = .error .bitStuffingViolation := by
  simp only [deframe, findFlag_eq_some hi, Nat.zero_add, hscan]

theorem deframe_noClose (hscan : destuffScan raw (i + 8) = .noClose) : deframe raw = .error .noClosingFlag := by
  simp only [deframe, findFlag_eq_some hi, Nat.zero_add, hscan]

theorem deframe_nonOctet {body : Bits} {k : Nat} (hscan : destuffScan raw (i + 8) = .close body k)
    (hlen : body.length % 8 ≠ 0) : deframe raw = .error .nonOctetFrame := by
  simp only [deframe, findFlag_eq_some hi, Nat.zero_add, hscan, if_pos hlen]

/-- A body of whole bytes is the verifier's (R203). -/
theorem deframe_closed {b : List Byte} {k : Nat} (hscan : destuffScan raw (i + 8) = .close (bitsMSB b) k) :
    deframe raw = (verifyFcs b).map fun p => (p, k + 8) := by
  have hlen : ¬ (bitsMSB b).length % 8 ≠ 0 := by rw [length_bitsMSB]; omega
  simp only [deframe, findFlag_eq_some hi, Nat.zero_add, hscan, if_neg hlen, packMSB_bitsMSB]
  cases verifyFcs b <;> rfl

end AfterFlag

/-- A framed body deframes to what the verifier makes of it, whatever bits follow (R192, R193). -/
theorem deframe_framed_append (b : List Byte) (rest : Bits) :
    deframe (framed (bitsMSB b) ++ rest) = (verifyFcs b).map fun p => (p, (framed (bitsMSB b)).length) := by
  have hscan : destuffScan (framed (bitsMSB b) ++ rest) (0 + 8) = .close (bitsMSB b) (8 + (stuff (bitsMSB b)).length) :=
    destuffingUndoesStuffing flagBits (bitsMSB b) rest
  rw [deframe_closed ⟨flagAt_zero_framed_append _ rest, fun q hq => absurd hq (Nat.not_lt_zero q)⟩ hscan, length_framed,
    show 8 + (stuff (bitsMSB b)).length + 8 = 16 + (stuff (bitsMSB b)).length by omega]

/-- Packing puts padding after the line, which deframing does not read. -/
theorem deframe_packed_framed (b : List Byte) :
    deframe (bitsMSB (packMSB (framed (bitsMSB b)))) =
      (verifyFcs b).map fun p => (p, (framed (bitsMSB b)).length) := by
  rw [← List.take_append_drop (framed (bitsMSB b)).length (bitsMSB _), take_bitsMSB_packMSB, deframe_framed_append]

theorem deframe_packed_frameLine (d : List Byte) :
    deframe (bitsMSB (packMSB (frameLine d))) = .ok (d.map rev8, (frameLine d).length) := by
  rw [frameLine_eq_framed, deframe_packed_framed, frameBody, verifyFcs_append_fcsBytes, if_pos rfl]
  rfl

/-! ## HDLC_DECODE -/

/-- The state after HDLC_DECODE has stored a payload that was received bit-reversed (R203). -/
def hdlcDecoded (p : List Byte) (used : Nat) (s : State) : State :=
  complete 0x31 { storeObuf (p.map rev8) s with
    olen := BitVec.ofNat 16 p.length
    obits := BitVec.ofNat 32 used }

theorem obuf_hdlcDecoded (p : List Byte) (used : Nat) (s : State) {j : Nat} (hj : j < p.length) :
    (hdlcDecoded p used s).obuf j = (p.map rev8).getD j 0 :=
  obuf_storeObuf s _ (by simpa using hj)

theorem getLsbD_obuf_hdlcDecoded (p : List Byte) (used : Nat) (s : State) {j i : Nat} (hj : j < p.length)
    (hi : i < 8) : ((hdlcDecoded p used s).obuf j).getLsbD i = (p.getD j 0).getLsbD (7 - i) := by
  have hbyte : (p.map rev8).getD j 0 = rev8 (p.getD j 0) := List.getD_map (d := 0) (f := rev8) _
  rw [obuf_hdlcDecoded p used s hj, hbyte, getLsbD_rev8 _ hi]

theorem hdlcDecoded_onlyObufBelow (p : List Byte) (used : Nat) (s : State) :
    OnlyObufBelow p.length s (hdlcDecoded p used s) := by
  rw [← List.length_map rev8]
  exact onlyObufBelow_storeObuf (p.map rev8) s

theorem exec_hdlcDecode_unreadable {s : State} (hread : ¬ Readable s) : Raises .hdlcDecode 0x31 .lengthOutOfRange s :=
  raises_of_error (i := .hdlcDecode) <| by
    rw [commandResult, hdlcDecodeResult, checkedInput_error (Nat.not_le.mp hread)]

section Decode

variable {s : State} {d : List Byte} (hd : InputIs s d) (hread : Readable s)
include hd hread

theorem raises_of_deframe_error {c : StatusCode} (h : deframe (bitsMSB d) = .error c) :
    Raises .hdlcDecode 0x31 c s :=
  raises_of_error (i := .hdlcDecode) <| by
    simp only [commandResult, hdlcDecodeResult, checkedInput_of_inputIs hd hread, h]

variable {p : List Byte} {used : Nat} (h : deframe (bitsMSB d) = .ok (p, used))
include h

theorem exec_hdlcDecode_overflow (hsize : s.cfg.obufBytes < p.length) : Raises .hdlcDecode 0x31 .outputOverflow s :=
  raises_of_error (i := .hdlcDecode) <| by
    simp [commandResult, hdlcDecodeResult, checkedInput_of_inputIs hd hread, h, fitsObuf, hsize]

theorem exec_hdlcDecode_ok (hfit : p.length ≤ s.cfg.obufBytes) :
    exec .hdlcDecode s = .next (hdlcDecoded p used s) := by
  have hok : commandResult s .hdlcDecode = .ok (p.map rev8, used) := by
    simp [commandResult, hdlcDecodeResult, checkedInput_of_inputIs hd hread, h, fitsObuf, hfit]
  rw [exec_of_ok hok, commitOutput, List.length_map]
  rfl

end Decode

/-- Settles O50: the rule's scan is the model's; one lemma for each way deframing and the check of OBUF end. -/
theorem hdlcDecodeChecksAndWrites : Obligations.HdlcDecodeChecksAndWrites := by
  refine ⟨decode_encode .hdlcDecode, fun s d hd => ⟨exec_hdlcDecode_unreadable, fun hread hnone => ?_,
    fun i hread hi => ?_⟩⟩
  · exact raises_of_deframe_error hd hread (deframe_noFlag hnone)
  rw [← destuffScan_eq_ruleScan]
  refine ⟨fun q hq => ?_, fun hno => ?_, fun body k hk => ⟨fun hlen => ?_, fun hlen hshort => ?_, ?_⟩⟩
  · exact raises_of_deframe_error hd hread (deframe_violation hi hq)
  · exact raises_of_deframe_error hd hread (deframe_noClose hi hno)
  · exact raises_of_deframe_error hd hread (deframe_nonOctet hi hk hlen)
  · obtain ⟨b, rfl⟩ := exists_bitsMSB body hlen
    have htwo : b.length < 2 := by rw [length_bitsMSB] at hshort; omega
    exact raises_of_deframe_error hd hread (by rw [deframe_closed hi hk, verifyFcs, if_pos htwo]; rfl)
  · rintro p hiByte loByte rfl
    have hdeframe := deframe_closed hi hk
    rw [← fcsBytes_append, verifyFcs_append_fcsBytes] at hdeframe
    rw [ruleCrc16_eq_crc16, bigEndian_eq_append]
    refine ⟨fun hne => ?_, fun heq hsize => ?_, fun heq hfit => ?_⟩
    · rw [if_neg hne] at hdeframe
      exact raises_of_deframe_error hd hread hdeframe
    · rw [if_pos heq] at hdeframe
      exact exec_hdlcDecode_overflow hd hread hdeframe hsize
    · rw [if_pos heq] at hdeframe
      exact ⟨_, exec_hdlcDecode_ok hd hread hdeframe hfit, rfl,
        fun _ _ hj hbit => getLsbD_obuf_hdlcDecoded p _ s hj hbit, hdlcDecoded_onlyObufBelow p _ s⟩

/-! ## The round trip and a flipped bit -/

/-- Settles O51: the copy is the packed line, and the line deframes to the reversed payload. -/
theorem decodeUndoesEncode : Obligations.DecodeUndoesEncode := by
  intro s t u d hcfg hd hread henc hok hucfg hulen hcopy huread
  obtain ⟨hfit, rfl⟩ := hdlcEncode_status_ok henc hok
  rw [inputBytes_of_inputIs hd] at hfit hulen hcopy ⊢
  have holen := toNat_olen_hdlcEncoded hcfg hfit
  rw [holen] at hcopy
  have hu : InputIs u (packMSB (frameLine d)) := by
    refine ⟨by rw [hulen, holen, length_packMSB], fun j hj => ?_⟩
    rw [length_packMSB] at hj
    rw [hcopy j hj, obuf_hdlcEncoded _ s hj]
  have hlen : (d.map rev8).length ≤ u.cfg.obufBytes := by
    obtain ⟨hlow, -⟩ := length_frameLine_bounds d
    unfold octets at hfit
    rw [List.length_map, hucfg]
    omega
  refine ⟨_, exec_hdlcDecode_ok hu huread (deframe_packed_frameLine d) hlen, rfl, ?_, rfl, fun j hj => ?_⟩
  · have hd16 : d.length < 2 ^ 16 := hd.1 ▸ s.ilen.isLt
    simpa [hdlcDecoded] using Nat.mod_eq_of_lt hd16
  · rw [obuf_hdlcDecoded _ _ u (by simpa using hj), List.map_map, show rev8 ∘ rev8 = id from funext rev8_rev8,
      List.map_id]

/-- Settles O52: the flipped body is one of whole bytes, which deframes to what the verifier makes of it. -/
theorem bodyBitErrorsAreFcsMismatches : Obligations.BodyBitErrorsAreFcsMismatches := by
  intro s d p hp hread hd
  rw [ruleBody_eq_frameBody] at hd
  obtain ⟨e, he⟩ := exists_bitsMSB (flipBit (bitsMSB (frameBody d)) p) (by rw [length_flipBit, length_bitsMSB]; omega)
  have hbad : verifyFcs e = .error .fcsMismatch :=
    verifyFcs_flipBit_eq_mismatch (d := d.map rev8) (by simpa using hp) he.symm
  rw [he] at hd
  exact raises_of_deframe_error hd hread ((deframe_packed_framed e).trans (by rw [hbad]; rfl))

end Sys2Proof.Machine

/-! PROOF. SOFT_RESET and the illegal command word (spec/44_system.md). A command's word is its opcode, so a word with
RSVD bits set, or with an opcode that is not in the map, decodes to no command. -/

namespace Sys2Proof.Machine

open Sys2Proof Sys2Proof.Claims

/-! ## The illegal command word -/

/-- RSVD is 0 in a command's word (R80). -/
theorem toNat_encode (i : Instr) : (encode i).toNat = i.opcode.toNat := by
  rw [encode, BitVec.toNat_append]
  simp

/-- The opcode map, by number (R83). -/
theorem toNat_opcode_mem (i : Instr) :
    i.opcode.toNat ∈ [0x01, 0x10, 0x11, 0x12, 0x13, 0x20, 0x21, 0x30, 0x31, 0x40, 0x41] := by
  cases i <;> decide

theorem opcodeField_eq_ofNat (w : Word) : opcodeField w = BitVec.ofNat 8 (w.toNat % 256) := by
  apply BitVec.eq_of_toNat_eq
  simp [opcodeField]

/-- A word that decodes to no command writes STATUS (R231). -/
theorem runWord_of_decode_ne_ok {w : Word} (hw : ∀ i, decode w ≠ .ok i) (s : State) :
    runWord w s = .next (illegalCommand w s) := by
  unfold runWord
  cases hdecode : decode w with
  | ok i => exact absurd hdecode (hw i)
  | error e => rfl

/-- Settles O7: a word that decoded to a command would be its opcode, which is in the map and below 256. -/
theorem illegalWordOnlyWritesStatus : Obligations.IllegalWordOnlyWritesStatus := by
  intro s w rest h hillegal
  have hdecode : ∀ i, decode w ≠ .ok i := by
    intro i hi
    have hword : w.toNat = i.opcode.toNat := by rw [decode_eq_ok_iff.mp hi, toNat_encode]
    have hlt : w.toNat < 256 := hword ▸ i.opcode.isLt
    rcases hillegal with hreserved | hunassigned
    · exact absurd hlt (Nat.not_lt.mpr hreserved)
    · rw [Nat.mod_eq_of_lt hlt, hword] at hunassigned
      exact hunassigned (toNat_opcode_mem i)
  rw [step, fetchCommand_of_writeCmd h]
  simp only [runWord_of_decode_ne_ok hdecode, illegalCommand, opcodeField_eq_ofNat, raiseStatus]

/-! ## SOFT_RESET -/

theorem exec_softReset (s : State) : exec .softReset s = .next (complete 0x01 (resetRegisters s)) :=
  exec_of_ok (i := .softReset) rfl

theorem resetRegisters_getElem_ar (s : State) (k : Fin 10) : (resetRegisters s).ar[k] = AddrSlot.reset := by
  simp

theorem reset_call_getElem (j : Fin 6) : AddrSlot.reset.call[j] = 0x20 := by
  revert j
  decide

/-- Settles O22: beside STATUS, the state is that of `resetRegisters`, whose slots are all the reset slot. -/
theorem softResetRestoresEveryRegister : Obligations.SoftResetRestoresEveryRegister := by
  refine ⟨decode_encode .softReset, fun s => ⟨_, exec_softReset s, rfl, rfl, rfl, rfl, rfl, rfl, rfl, rfl, rfl, rfl,
    fun k => ?_, rfl, rfl, rfl, rfl, rfl⟩⟩
  rw [complete_ar, resetRegisters_getElem_ar]
  exact ⟨reset_call_getElem, rfl, rfl, rfl, rfl, rfl, rfl⟩

end Sys2Proof.Machine

/-! PROOF. The ends of a command as exceptions (spec/60_exceptions.md): what a failed command writes, and the status
codes each command can end with. -/

namespace Sys2Proof.Machine

open Sys2Proof Sys2Proof.Claims

/-- Settles O24: the error end of a command is `raiseStatus`; the other end has the code OK. -/
theorem failedCommandsWriteStatusOnly : Obligations.FailedCommandsWriteStatusOnly := by
  intro i s t h hcode
  obtain ⟨c, -, rfl⟩ | ⟨a, -, rfl⟩ := exec_next h
  · rfl
  · exact absurd rfl hcode

theorem code_mem_of_complete {op : BitVec 8} {codes : List StatusCode} {u t : State} (h : t = complete op u) :
    t.status.code ∈ .ok :: codes := by
  rw [h]
  exact List.mem_cons_self

/-- A command that raises one of `codes` or completes has one of `codes` or OK. -/
theorem code_mem_of_raise_or_complete {op : BitVec 8} {codes : List StatusCode} {s t : State}
    (h : (∃ c, c ∈ codes ∧ t = raiseStatus op c s) ∨ (∃ u, t = complete op u)) : t.status.code ∈ .ok :: codes := by
  obtain ⟨c, hc, rfl⟩ | ⟨u, ht⟩ := h
  · exact List.mem_cons_of_mem _ hc
  · exact code_mem_of_complete ht

/-- Settles O25: the inversion lemma of each command names the codes it raises. -/
theorem commandsRaiseOnlyTheirCodes : Obligations.CommandsRaiseOnlyTheirCodes := by
  intro i s t h
  cases i with
  | softReset => exact code_mem_of_complete (execSoftReset_next h)
  | crcInit => exact code_mem_of_complete (execCrcInit_next h)
  | crcByte => exact code_mem_of_complete (execCrcByte_next h)
  | crcBuf =>
    exact code_mem_of_raise_or_complete
      ((execCrcBuf_next h).imp (fun ⟨_, ht⟩ => ⟨_, List.mem_singleton_self _, ht⟩) fun ⟨_, ht⟩ => ⟨_, ht⟩)
  | fcsCheck => exact code_mem_of_raise_or_complete ((execFcsCheck_next h).imp_right fun ht => ⟨_, ht⟩)
  | revByte => exact code_mem_of_complete (execRevByte_next h)
  | revBuf => exact code_mem_of_raise_or_complete ((execRevBuf_next h).imp_right fun ⟨_, _, _, ht⟩ => ⟨_, ht⟩)
  | hdlcEncode =>
    exact code_mem_of_raise_or_complete ((execHdlcEncode_next h).imp_right fun ⟨_, _, _, _, ht⟩ => ⟨_, ht⟩)
  | hdlcDecode =>
    exact code_mem_of_raise_or_complete ((execHdlcDecode_next h).imp_right fun ⟨_, _, _, _, _, ht⟩ => ⟨_, ht⟩)
  | addrEncode =>
    exact code_mem_of_raise_or_complete ((execAddrEncode_next h).imp_right fun ⟨_, _, _, _, _, ht⟩ => ⟨_, ht⟩)
  | addrDecode =>
    exact code_mem_of_raise_or_complete ((execAddrDecode_next h).imp_right fun ⟨_, _, _, ht⟩ => ⟨_, ht⟩)

end Sys2Proof.Machine

/-! PROOF. Reset and the idle block (spec/70_reset_and_hazards.md). What a state right after power-on holds is said of
every capacity and power cycle, so it serves the power-on move and `State.reset` alike. -/

namespace Sys2Proof.Machine

open Sys2Proof Sys2Proof.Claims

/-- Settles O8: no move is fetched, and none is made. -/
theorem idleBlockStaysAsItIs : Obligations.IdleBlockStaysAsItIs := fun _ => step_idle

/-! ## The state right after power-on -/

section AtPowerOn

variable (c : Config) (cycle : Nat) (inputs : List Input) (replies : List Reply)

/-- No byte is written yet, so each is the draw of the power cycle (R284). -/
theorem byteAt_atPowerOn (a : Nat) :
    (State.atPowerOn c cycle inputs replies).byteAt a = Config.powerOnByte cycle a := rfl

theorem regWord_atPowerOn_status : (State.atPowerOn c cycle inputs replies).regWord .status = 0x00000000 := by
  change Status.word { code := .ok, lastOpcode := 0x00 } = 0x00000000
  decide

theorem atPowerOn_getElem_ar (k : Fin 10) : (State.atPowerOn c cycle inputs replies).ar[k] = AddrSlot.reset := by
  simp [State.atPowerOn]

/-- The address slots at reset, as the host reads them (R38). -/
theorem regWord_atPowerOn_slot (k : Fin 10) :
    (State.atPowerOn c cycle inputs replies).regWord (.arLo k) = 0x20202020 ∧
    (State.atPowerOn c cycle inputs replies).regWord (.arHi k) = 0x06002020 := by
  rw [State.regWord, State.regWord, atPowerOn_getElem_ar]
  decide

/-- With legal capacities, an empty memory and zeroed lengths meet every bound. -/
theorem inv_atPowerOn {c : Config} (hc : c.wellFormed = true) : (State.atPowerOn c cycle inputs replies).Inv where
  cfg_legal := hc
  mem_wf := .nil
  mem_within := fun _ hx => absurd hx List.not_mem_nil
  olen_fits := Nat.zero_le _
  obits_fits := Nat.zero_le _
  hlen_legal := legalHlen_zero

end AtPowerOn

/-- Settles O21: the slots and the bytes are those of any power-on; each other register is one field at reset. -/
theorem resetLeavesTheStatedValues : Obligations.ResetLeavesTheStatedValues :=
  ⟨regWord_atPowerOn_status Config.standard 0 [] [], rfl, rfl, rfl, rfl, rfl, rfl, rfl, rfl, rfl, rfl,
    regWord_atPowerOn_slot Config.standard 0 [] [], byteAt_atPowerOn Config.standard 0 [] []⟩

/-- Settles O30: the capacities at reset are legal. -/
theorem resetMeetsTheInvariant : Obligations.ResetMeetsTheInvariant := inv_atPowerOn 0 [] [] (by decide)

/-! ## The power-on move and SOFT_RESET -/

theorem step_powerOn {s : State} {rest : List Input} (h : s.inputs = .powerOn :: rest) :
    step s = .next (powerOnReset { s with inputs := rest }) :=
  step_move h (by simp [StartsCommand]) rfl

/-- Both resets leave one value in each register but STATUS, whatever the states they start from (R282). -/
theorem regWord_powerOnReset_eq_softReset (s u : State) {r : Reg} (hr : r ≠ .status) :
    (powerOnReset s).regWord r = (complete 0x01 (resetRegisters u)).regWord r := by
  cases r with
  | status => exact absurd rfl hr
  | _ => rfl

/-- STATUS after SOFT_RESET: LAST_OPCODE 0x01 above the code OK (R282). -/
theorem regWord_status_softReset (s : State) :
    (complete 0x01 (resetRegisters s)).regWord .status = 0x00000100 := by
  rw [State.regWord, complete_status]
  decide

/-- Settles O9: power-on starts the buffers and the power cycle anew, SOFT_RESET leaves them, and the registers are
equal but for LAST_OPCODE. -/
theorem powerOnAndSoftResetAgree : Obligations.PowerOnAndSoftResetAgree := fun s rest h =>
  ⟨powerOnReset { s with inputs := rest }, complete 0x01 (resetRegisters s), step_powerOn h, exec_softReset s,
    fun _ => regWord_powerOnReset_eq_softReset _ s, regWord_atPowerOn_status s.cfg (s.powerCycle + 1) rest s.replies,
    regWord_status_softReset s, byteAt_atPowerOn s.cfg (s.powerCycle + 1) rest s.replies,
    fun a => by rw [complete_byteAt, resetRegisters_byteAt], rfl, rfl, rfl, rfl⟩

end Sys2Proof.Machine
